-- ==== Sys2Proof/Word.lean ====
section
/-! DEFINITION. The data units: the 16-bit word every cell holds (spec/00_scope.md R7, 10_state.md R11), and the byte of
the object file (20_memory.md R39). -/

namespace Sys2Proof

/-- "16-bit unsigned integer" (00_scope.md glossary): registers, PC, SP, O, RAM words, operands and extra words. -/
abbrev Word := BitVec 16

/-- One byte of the object file (20_memory.md R39). The core itself has no byte. -/
abbrev Byte := BitVec 8

/-- `wrap16(v) = v mod 2^16` of 00_scope.md, section 4: every result is narrowed here, once, from exact arithmetic (R100). -/
def wrap16 (n : Nat) : Word := BitVec.ofNat 16 n

end Sys2Proof
end

