-- ==== Sys2Proof/Machine/Flags.lean ====
section
/-! DEFINITION. The core has no flag register (spec/10_state.md R29): what an opcode reports is the overflow word O
(42_alu.md R113) and, for a conditional, whether to set Skip (43_conditionals.md R114). Every intermediate is an exact
natural or integer; the result is narrowed once (R100). -/

namespace Sys2Proof.Machine

/-- ADD: 0x0001 on carry out, else 0x0000 (R103). -/
def addOverflow (x y : Word) : Word := if x.toNat + y.toNat ≥ 2 ^ 16 then 0x0001 else 0x0000

/-- SUB: 0xFFFF on borrow, else 0x0000 (R104). -/
def subOverflow (x y : Word) : Word := if (x.toNat : Int) - (y.toNat : Int) < 0 then 0xFFFF else 0x0000

/-- MUL: the high word of the product (R105). -/
def mulOverflow (x y : Word) : Word := wrap16 (x.toNat * y.toNat / 2 ^ 16)

/-- DIV: the fractional word, 0 on a zero divisor (R106). -/
def divOverflow (x y : Word) : Word :=
  if y.toNat = 0 then 0x0000 else wrap16 (x.toNat * 2 ^ 16 / y.toNat)

/-- SHL: bits 31..16 of the exact shift; the count is not reduced (R108, decision D10, log 10). -/
def shlOverflow (x y : Word) : Word := wrap16 (x.toNat * 2 ^ y.toNat / 2 ^ 16)

/-- SHR: the bits shifted out, left-aligned; the count is not reduced (R109, decision D10, log 10). -/
def shrOverflow (x y : Word) : Word := wrap16 (x.toNat * 2 ^ 16 / 2 ^ y.toNat)

/-- IFE skips when `x ≠ y` (R115). -/
def ifeSkips (x y : Word) : Bool := x != y

/-- IFN skips when `x = y` (R116). -/
def ifnSkips (x y : Word) : Bool := x == y

/-- IFG skips when `x ≤ y`, unsigned (R117). -/
def ifgSkips (x y : Word) : Bool := decide (x.toNat ≤ y.toNat)

/-- IFB skips when `x` and `y` share no set bit (R118). -/
def ifbSkips (x y : Word) : Bool := (x &&& y) == 0

end Sys2Proof.Machine
end

