-- ==== Sys2Proof/Config.lean ====
section
/-! DEFINITION. The parameters of this hardware (spec/00_scope.md R6) and the values reset leaves (10_state.md section 10).
The spec leaves no result of an instruction open, so there is no free value here. -/

namespace Sys2Proof.Config

/-- "65 536 words (`Ram(w)`, `w ∈ [0, 2¹⁶)`)" (00_scope.md R6, 10_state.md R27). -/
def ramWords : Nat := 65536

/-- What a RAM word holds that nothing has written: "Every RAM word is `0x0000` after construction" (10_state.md R28). -/
def ramFill : Word := 0x0000

/-- PC after reset (10_state.md R18). -/
def pcReset : Word := 0x0000

/-- SP after reset (10_state.md R20, 70_reset_and_hazards.md R133). -/
def spReset : Word := 0xFFFF

/-- Every other cell after reset: "every cell zero except SP" (70_reset_and_hazards.md R132). -/
def cellReset : Word := 0x0000

/-- The non-basic opcode of JSR, the only one defined (30_encoding.md R57). -/
def jsrCode : BitVec 6 := 0x01

end Sys2Proof.Config
end

