-- ==== Sys2Proof/Syntax.lean ====
section
/-! DEFINITION. Instructions as syntax: registers, the twelve operand forms, and one constructor of `Instr` per row of
spec/opcode_table.json. An instruction is what ONE instruction word says: the decoder "does not consume `nextword`s"
(30_encoding.md R55); an operand's extra word is fetched from RAM by the resolver (40_operand_resolution.md R69). -/

namespace Sys2Proof

/-- The enumerated domain `{A,B,C,X,Y,Z,I,J}` (10_state.md R13). -/
inductive Reg where
  | a | b | c | x | y | z | i | j
deriving DecidableEq, Repr

/-- The twelve addressing-mode rows of 30_encoding.md R59 (90_conflicts.md C1: twelve, not eleven). -/
inductive Operand where
  /-- 0x00..0x07, `Register(r)`. -/
  | reg (r : Reg)
  /-- 0x08..0x0F, `[Register(r)]`. -/
  | regInd (r : Reg)
  /-- 0x10..0x17, `[nextword + Register(r)]`. -/
  | nextRegInd (r : Reg)
  /-- 0x18, `POP`. -/
  | pop
  /-- 0x19, `PEEK`. -/
  | peek
  /-- 0x1A, `PUSH`. -/
  | push
  /-- 0x1B, `SP` itself. -/
  | sp
  /-- 0x1C, `PC` itself. -/
  | pc
  /-- 0x1D, `O` itself. -/
  | o
  /-- 0x1E, `[nextword]`. -/
  | nextInd
  /-- 0x1F, `nextword` as a literal. -/
  | nextLit
  /-- 0x20..0x3F, the short literal `code - 0x20`: a 5-bit field (30_encoding.md R61). -/
  | lit (n : BitVec 5)
deriving DecidableEq, Repr

/-- One constructor per row of spec/opcode_table.json: 15 basic opcodes (30_encoding.md R56), JSR, and the row of the
reserved non-basic words (R57), which keeps both 6-bit fields of its word so that the fault can carry the word (R121). -/
inductive Instr where
  | set (a b : Operand)
  | add (a b : Operand)
  | sub (a b : Operand)
  | mul (a b : Operand)
  | div (a b : Operand)
  | mod (a b : Operand)
  | shl (a b : Operand)
  | shr (a b : Operand)
  | and (a b : Operand)
  | bor (a b : Operand)
  | xor (a b : Operand)
  | ife (a b : Operand)
  | ifn (a b : Operand)
  | ifg (a b : Operand)
  | ifb (a b : Operand)
  | jsr (a : Operand)
  | reserved (nbop a : BitVec 6)
deriving DecidableEq, Repr

end Sys2Proof
end

