-- ==== Sys2Proof/WellFormed.lean ====
section
/-! DEFINITION. Which instruction terms a word can carry. Every operand code is defined in both positions
(30_encoding.md R58), so the only check is that a reserved word's non-basic opcode is one of the 63 reserved ones (R57). -/

namespace Sys2Proof

/-- `nbop ∈ {0x00} ∪ [0x02, 0x3F]` is reserved; 0x01 is JSR (30_encoding.md R57). -/
def reservedCode (nbop : BitVec 6) : Bool := nbop != Config.jsrCode

/-- The instruction is one that some instruction word carries. -/
def Instr.wf : Instr → Bool
  | .set _ _ | .add _ _ | .sub _ _ | .mul _ _ | .div _ _ | .mod _ _ => true
  | .shl _ _ | .shr _ _ | .and _ _ | .bor _ _ | .xor _ _ => true
  | .ife _ _ | .ifn _ _ | .ifg _ _ | .ifb _ _ => true
  | .jsr _ => true
  | .reserved nbop _ => reservedCode nbop

end Sys2Proof
end

