-- ==== Sys2Proof/Decode.lean ====
section
/-! DEFINITION. The decoder block (spec/30_encoding.md R48 to R62) and, after it, the encoder written from the same tables.
`decodeWord` is the block itself: total on the 65 536 words, each one exactly one of Basic, JSR or a reserved word (R54).
`decodeUnit` reads an instruction and its extra words off a stream of words and rejects a stream that is too short, by name. -/

namespace Sys2Proof

/-! ### Fields of an instruction word (R48) -/

/-- `iw[3:0] = iw mod 16`. -/
def lowField (iw : Word) : BitVec 4 := iw.extractLsb' 0 4

/-- `iw[9:4] = (iw div 16) mod 64`. -/
def midField (iw : Word) : BitVec 6 := iw.extractLsb' 4 6

/-- `iw[15:10] = iw div 1024`. -/
def topField (iw : Word) : BitVec 6 := iw.extractLsb' 10 6

/-! ### Registers and operand codes -/

/-- The register of a code 0..7 (10_state.md R13; the numbers of B to J are decision D3, log 5). A larger number is no
register code: the callers below pass 0..7 only. -/
def Reg.ofCode (n : Nat) : Reg :=
  match n with
  | 0 => .a
  | 1 => .b
  | 2 => .c
  | 3 => .x
  | 4 => .y
  | 5 => .z
  | 6 => .i
  | _ => .j

/-- The operand form of each 6-bit code (R59): the twelve rows of the table, in its order. -/
def decodeOperand (code : BitVec 6) : Operand :=
  let c := code.toNat
  if c ≤ 0x07 then .reg (Reg.ofCode c)
  else if c ≤ 0x0F then .regInd (Reg.ofCode (c - 0x08))
  else if c ≤ 0x17 then .nextRegInd (Reg.ofCode (c - 0x10))
  else if c = 0x18 then .pop
  else if c = 0x19 then .peek
  else if c = 0x1A then .push
  else if c = 0x1B then .sp
  else if c = 0x1C then .pc
  else if c = 0x1D then .o
  else if c = 0x1E then .nextInd
  else if c = 0x1F then .nextLit
  else .lit (BitVec.ofNat 5 (c - 0x20))

/-! ### The instruction word -/

/-- Format N, `iw[3:0] = 0` (R50, R53): JSR, or a reserved word, which is reported and not run (R57). -/
def decodeNonBasic (nbop a : BitVec 6) : Instr :=
  if nbop = Config.jsrCode then .jsr (decodeOperand a) else .reserved nbop a

/-- The decoder block (R53): format B when the low nibble is 0x1..0xF (R49; the numbers 0x3..0xF are decision D3, log 5),
else format N. The last case is the one low nibble left, 0x0. -/
def decodeWord (iw : Word) : Instr :=
  let a := decodeOperand (midField iw)
  let b := decodeOperand (topField iw)
  match (lowField iw).toNat with
  | 0x1 => .set a b
  | 0x2 => .add a b
  | 0x3 => .sub a b
  | 0x4 => .mul a b
  | 0x5 => .div a b
  | 0x6 => .mod a b
  | 0x7 => .shl a b
  | 0x8 => .shr a b
  | 0x9 => .and a b
  | 0xA => .bor a b
  | 0xB => .xor a b
  | 0xC => .ife a b
  | 0xD => .ifn a b
  | 0xE => .ifg a b
  | 0xF => .ifb a b
  | _ => decodeNonBasic (midField iw) (topField iw)

/-! ### Lengths (R51, R60) -/

/-- `extraWords(c)`: 1 for codes 0x10..0x17, 0x1E and 0x1F, else 0 (R60). -/
def Operand.extraWords : Operand → Nat
  | .nextRegInd _ | .nextInd | .nextLit => 1
  | .reg _ | .regInd _ | .pop | .peek | .push | .sp | .pc | .o | .lit _ => 0

/-- The operands in encoding order, `a` first (R51, 40_operand_resolution.md R70). A reserved word has none: it faults
before any operand is resolved (60_exceptions.md R120). -/
def Instr.operands : Instr → List Operand
  | .set a b | .add a b | .sub a b | .mul a b | .div a b | .mod a b => [a, b]
  | .shl a b | .shr a b | .and a b | .bor a b | .xor a b => [a, b]
  | .ife a b | .ifn a b | .ifg a b | .ifb a b => [a, b]
  | .jsr a => [a]
  | .reserved _ _ => []

/-- The number of extra words the instruction consumes. -/
def Instr.extraWords (i : Instr) : Nat := (i.operands.map Operand.extraWords).sum

/-- The instruction length in words (R51): "The first word alone fixes the length". -/
def Instr.length (i : Instr) : Nat := 1 + i.extraWords

/-! ### A stream of words -/

/-- Why a stream of words holds no whole instruction (log 16). -/
inductive DecodeError where
  /-- The stream is empty: there is no instruction word. Safe: nothing is decoded. -/
  | noInstructionWord
  /-- The instruction word consumes more extra words than the stream has left. Safe: nothing is decoded. -/
  | missingExtraWords (i : Instr) (needed present : Nat)
deriving DecidableEq, Repr

/-- The next instruction of a stream: its syntax, its extra words in operand order, and the rest of the stream (R51). -/
def decodeUnit : List Word → Except DecodeError (Instr × List Word × List Word)
  | [] => .error .noInstructionWord
  | iw :: rest =>
    let i := decodeWord iw
    if rest.length < i.extraWords then .error (.missingExtraWords i i.extraWords rest.length)
    else .ok (i, rest.take i.extraWords, rest.drop i.extraWords)

/-- The words of an instruction whose bits are numbered as spec/opcode_table.json numbers them: bit 0 is the least
significant bit of the first word; every bit from `nbits` up is 0. Three words: the longest instruction (R51). -/
def tableWords (nbits w : Nat) : List Word :=
  let v := w % 2 ^ nbits
  [wrap16 v, wrap16 (v / 2 ^ 16), wrap16 (v / 2 ^ 32)]

/-- The instruction the decoder reads from the table word `w` of `nbits` bits. -/
def decodeTableWord (nbits w : Nat) : Option Instr :=
  match decodeUnit (tableWords nbits w) with
  | .ok (i, _, _) => some i
  | .error _ => none

/-! ### The encoder (R49, R50, R59, R66) -/

/-- The register code (10_state.md R13). -/
def Reg.code : Reg → BitVec 6
  | .a => 0
  | .b => 1
  | .c => 2
  | .x => 3
  | .y => 4
  | .z => 5
  | .i => 6
  | .j => 7

/-- The operand code of each operand form (R59). -/
def encodeOperand : Operand → BitVec 6
  | .reg r => r.code
  | .regInd r => 0x08 + r.code
  | .nextRegInd r => 0x10 + r.code
  | .pop => 0x18
  | .peek => 0x19
  | .push => 0x1A
  | .sp => 0x1B
  | .pc => 0x1C
  | .o => 0x1D
  | .nextInd => 0x1E
  | .nextLit => 0x1F
  | .lit n => 0x20 + n.setWidth 6

/-- Format B (R49): `b` in bits 15..10, `a` in bits 9..4, `op` in bits 3..0. -/
def formatB (op : BitVec 4) (a b : Operand) : Word := encodeOperand b ++ encodeOperand a ++ op

/-- Format N (R50): `a` in bits 15..10, `nbop` in bits 9..4, zero in bits 3..0. -/
def formatN (nbop a : BitVec 6) : Word := a ++ nbop ++ (0x0 : BitVec 4)

/-- The instruction word (R66, "hand-encoding"). -/
def encode : Instr → Word
  | .set a b => formatB 0x1 a b
  | .add a b => formatB 0x2 a b
  | .sub a b => formatB 0x3 a b
  | .mul a b => formatB 0x4 a b
  | .div a b => formatB 0x5 a b
  | .mod a b => formatB 0x6 a b
  | .shl a b => formatB 0x7 a b
  | .shr a b => formatB 0x8 a b
  | .and a b => formatB 0x9 a b
  | .bor a b => formatB 0xA a b
  | .xor a b => formatB 0xB a b
  | .ife a b => formatB 0xC a b
  | .ifn a b => formatB 0xD a b
  | .ifg a b => formatB 0xE a b
  | .ifb a b => formatB 0xF a b
  | .jsr a => formatN Config.jsrCode (encodeOperand a)
  | .reserved nbop a => formatN nbop a

/-- The words of an instruction and its extra words: the instruction word, "followed by the extra words in operand order"
(R66). -/
def encodeUnit (i : Instr) (extra : List Word) : List Word := encode i :: extra

/-- An instruction with exactly the extra words it consumes (R51). -/
def unitWf (i : Instr) (extra : List Word) : Bool := i.wf && extra.length == i.extraWords

end Sys2Proof
end

