-- ==== Sys2Proof/Machine/State.lean ====
section
/-! DEFINITION. The architectural state (spec/10_state.md): eight general registers, PC, SP, O, the Skip latch, the
reserved Cycles cell and 65 536 words of RAM (R10, R26), nothing else (R29); the reasons a step can stop; and the state
right after reset (R15, R18, R20, R22, R24, R26, R28; 70_reset_and_hazards.md R132). -/

namespace Sys2Proof.Machine

/-- RAM as data: (word address, word) pairs, addresses strictly rising, no word equal to the reset content
(`Ram.wf` in Machine/Ops.lean). An address names a 16-bit word and there is no byte (20_memory.md R33, log 1). -/
abbrev Ram := List (Nat × Word)

/-- The eight general registers (R13). -/
structure RegFile where
  a : Word
  b : Word
  c : Word
  x : Word
  y : Word
  z : Word
  i : Word
  j : Word
deriving DecidableEq, Repr

/-- Everything the spec gives the machine. -/
structure State where
  /-- A, B, C, X, Y, Z, I, J (R13). -/
  regs : RegFile
  /-- Program counter (R16). -/
  pc : Word
  /-- Stack pointer (R19). -/
  sp : Word
  /-- Overflow word (R21). -/
  o : Word
  /-- Skip latch (R23): a Bool, as R25 allows; a host-stored word is read as "nonzero" (log 8). -/
  skip : Bool
  /-- The reserved Cycles cell (R26): no instruction reads or writes it, only the host does (log 9). -/
  cycles : Word
  /-- Main memory (R27). -/
  ram : Ram
deriving DecidableEq, Repr

/-- The tagged selector `Address = PC | SP | O | Skip | Register(r) | Ram(w)` (R10). Cycles is not in it (R26, C4). -/
inductive Address where
  | pc
  | sp
  | o
  | skip
  | register (r : Reg)
  | ram (w : Word)
deriving DecidableEq, Repr

/-- A resolved operand: "either a writable `Address` or a read-only `Literal(u16)`" (40_operand_resolution.md R67). -/
inductive Value where
  | addr (c : Address)
  | lit (n : Word)
deriving DecidableEq, Repr

/-- The core's faults. -/
inductive Fault where
  /-- The illegal instruction (60_exceptions.md R120): a reserved non-basic word, carrying the word and the address it was
  fetched from (R121). Raised by `raiseIllegal`, from `execReserved` and `skipInstr`. Safe: the spec gives no next state
  ("a fault is terminal"). The choice of `fetchedAt` is the spec's decision D6 (log 4). -/
  | illegalInstruction (word fetchedAt : Word)
deriving DecidableEq, Repr

/-- What the model turns away. No instruction is refused; the last two are the host's load operations. -/
inductive Refusal where
  /-- An instruction that has no meaning yet, by its mnemonic. Raised by no arm of `exec`. Safe. -/
  | notModelled (mnemonic : String)
  /-- `loadProgram` of more words than RAM has (70_reset_and_hazards.md R134, D14). Raised by `loadProgram`. Safe. -/
  | programTooLong (words : Nat)
  /-- A byte image of odd length (20_memory.md R39, D14). Raised by `loadImage`. Safe. -/
  | oddImage (bytes : Nat)
deriving DecidableEq, Repr

/-- Every general register is 0x0000 after reset (R15). -/
def RegFile.reset : RegFile :=
  ⟨Config.cellReset, Config.cellReset, Config.cellReset, Config.cellReset,
   Config.cellReset, Config.cellReset, Config.cellReset, Config.cellReset⟩

/-- The machine right after reset, which is the construction of a fresh Memory (70_reset_and_hazards.md R132): "every cell
zero except `SP = 0xFFFF`". No program is in it: the host loads one (R134, log 12). -/
def State.reset : State where
  regs := RegFile.reset
  pc := Config.pcReset
  sp := Config.spReset
  o := Config.cellReset
  skip := false
  cycles := Config.cellReset
  ram := []

end Sys2Proof.Machine
end

