-- ==== Sys2Proof/Machine/Ops.lean ====
section
/-! DEFINITION. The named operations over memory and registers: RAM read and write (spec/20_memory.md), the register file,
`load` and `store` of a cell (10_state.md R10), `FetchWord` (00_scope.md R8), the push (44_nonbasic.md R119), and the one
exception (60_exceptions.md R120, R121). There is no return from it (R125). -/

namespace Sys2Proof.Machine

/-- How every step and every meaning ends. -/
abbrev Result := Host.Outcome State Fault Refusal

/-! ### RAM (R31 to R36) -/

/-- The word at an address; an address not listed holds the reset content (10_state.md R28). -/
def Ram.get : Ram → Nat → Word
  | [], _ => Config.ramFill
  | (k, v) :: m, w => if k = w then v else Ram.get m w

/-- Drop what is listed at an address. -/
def Ram.erase : Ram → Nat → Ram
  | [], _ => []
  | (k, v) :: m, w => if k = w then Ram.erase m w else (k, v) :: Ram.erase m w

/-- List a word at an address, before the first larger address. -/
def Ram.insert : Ram → Nat → Word → Ram
  | [], w, v => [(w, v)]
  | (k, u) :: m, w, v => if w < k then (w, v) :: (k, u) :: m else (k, u) :: Ram.insert m w v

/-- `MemRead(w, 1)`: total, with no side effect (R32, R36). -/
def Ram.read (m : Ram) (w : Word) : Word := Ram.get m w.toNat

/-- `MemWrite(w, 1, v)`: total (R32). Writing the reset content unlists the address, so equal memories are equal lists. -/
def Ram.write (m : Ram) (w : Word) (v : Word) : Ram :=
  if v = Config.ramFill then Ram.erase m w.toNat else Ram.insert (Ram.erase m w.toNat) w.toNat v

/-- `ws[i]` to the address `w + i`, for every `i`, wrapping. -/
def Ram.writeList (m : Ram) (w : Word) : List Word → Ram
  | [] => m
  | v :: vs => Ram.writeList (Ram.write m w v) (w + 1) vs

/-- Addresses are strictly rising from `lo`, stay below 65 536, and no listed word is the reset content. -/
def Ram.wfFrom : Nat → Ram → Bool
  | _, [] => true
  | lo, (k, v) :: m => decide (lo ≤ k) && decide (k < Config.ramWords) && v != Config.ramFill && Ram.wfFrom (k + 1) m

/-- The canonical form of memory. -/
def Ram.wf (m : Ram) : Bool := Ram.wfFrom 0 m

/-! ### General registers (10_state.md R13) -/

def RegFile.get (f : RegFile) : Reg → Word
  | .a => f.a
  | .b => f.b
  | .c => f.c
  | .x => f.x
  | .y => f.y
  | .z => f.z
  | .i => f.i
  | .j => f.j

def RegFile.set (f : RegFile) (r : Reg) (v : Word) : RegFile :=
  match r with
  | .a => { f with a := v }
  | .b => { f with b := v }
  | .c => { f with c := v }
  | .x => { f with x := v }
  | .y => { f with y := v }
  | .z => { f with z := v }
  | .i => { f with i := v }
  | .j => { f with j := v }

/-! ### One cell of the state at a time -/

def State.getReg (s : State) (r : Reg) : Word := s.regs.get r
def State.setReg (s : State) (r : Reg) (v : Word) : State := { s with regs := s.regs.set r v }
def State.setPc (s : State) (v : Word) : State := { s with pc := v }
def State.setSp (s : State) (v : Word) : State := { s with sp := v }
def State.setO (s : State) (v : Word) : State := { s with o := v }
def State.setSkip (s : State) (v : Bool) : State := { s with skip := v }
def State.setCycles (s : State) (v : Word) : State := { s with cycles := v }
def State.readRam (s : State) (w : Word) : Word := s.ram.read w
def State.writeRam (s : State) (w v : Word) : State := { s with ram := s.ram.write w v }

/-- The host view of the Skip latch, `0x0000` or `0x0001` (10_state.md R23). -/
def skipWord (b : Bool) : Word := if b then 0x0001 else 0x0000

/-- `load(c)` (20_memory.md R32): total over the cells of R10. -/
def load (c : Address) (s : State) : Word :=
  match c with
  | .pc => s.pc
  | .sp => s.sp
  | .o => s.o
  | .skip => skipWord s.skip
  | .register r => s.getReg r
  | .ram w => s.readRam w

/-- `store(c, v)` (20_memory.md R32): total. Any nonzero word sets Skip (10_state.md R25, log 8). -/
def store (c : Address) (v : Word) (s : State) : State :=
  match c with
  | .pc => s.setPc v
  | .sp => s.setSp v
  | .o => s.setO v
  | .skip => s.setSkip (v != 0x0000)
  | .register r => s.setReg r v
  | .ram w => s.writeRam w v

/-! ### Fetch and push -/

/-- `FetchWord()` (00_scope.md R8): read the word at PC, then advance PC by 1, wrapping. -/
def fetchWord (s : State) : Word × State := (s.readRam s.pc, s.setPc (s.pc + 1))

/-- The push of JSR (44_nonbasic.md R119): SP drops by 1, wrapping, then the word goes to the RAM word SP names. -/
def pushWord (v : Word) (s : State) : State :=
  let s1 := s.setSp (s.sp - 1)
  s1.writeRam s1.sp v

/-! ### The exception -/

/-- `raise IllegalInstruction(word, at)` (00_scope.md R9, 60_exceptions.md R120, R121, R124): no cell is changed, nothing is
pushed, no vector is taken, and the core has no next state; the word and the address it came from go to the host. -/
def raiseIllegal (word fetchedAt : Word) : Result := .fault (.illegalInstruction word fetchedAt)

end Sys2Proof.Machine
end

