-- ==== Sys2Proof/Machine/Operands.lean ====
section
/-! DEFINITION. The operand resolver (spec/40_operand_resolution.md): the Value of every operand form, with its PC and SP
side effects (R69, R73 to R83), and reads and writes through a Value (R72). -/

namespace Sys2Proof.Machine

/-- `resolve(code)` (R69). The Value is fixed here, once (R71); only PC and SP of the state can change (R68). -/
def resolve (operand : Operand) (s : State) : Value × State :=
  match operand with
  | .reg r => (.addr (.register r), s)
  | .regInd r => (.addr (.ram (s.getReg r)), s)
  | .nextRegInd r =>
    let f := fetchWord s
    (.addr (.ram (f.1 + f.2.getReg r)), f.2)
  | .pop => (.addr (.ram s.sp), s.setSp (s.sp + 1))
  | .peek => (.addr (.ram s.sp), s)
  | .push => (.addr (.ram (s.sp - 1)), s.setSp (s.sp - 1))
  | .sp => (.addr .sp, s)
  | .pc => (.addr .pc, s)
  | .o => (.addr .o, s)
  | .nextInd =>
    let f := fetchWord s
    (.addr (.ram f.1), f.2)
  | .nextLit =>
    let f := fetchWord s
    (.lit f.1, f.2)
  | .lit n => (.lit (n.setWidth 16), s)

/-- `read(v)` (R72): "a literal operand reads as its value". -/
def readValue (v : Value) (s : State) : Word :=
  match v with
  | .addr c => load c s
  | .lit n => n

/-- `write(v, n)` (R72): "Writes to a literal are silently discarded". -/
def writeValue (v : Value) (n : Word) (s : State) : State :=
  match v with
  | .addr c => store c n s
  | .lit _ => s

/-- The two Values of a basic instruction and the state in which it executes. -/
structure Resolved where
  va : Value
  vb : Value
  st : State

/-- From the PC of a basic instruction's word: fetch the word, resolve `a`, then `b` (R70, 41_step_control.md R84). -/
def resolveTwo (a b : Operand) (s : State) : Resolved :=
  let ra := resolve a (fetchWord s).2
  let rb := resolve b ra.2
  ⟨ra.1, rb.1, rb.2⟩

/-- `x = read(a)`, read in the execute phase, after both resolutions (41_step_control.md R93, decision D5, log 7). -/
def Resolved.x (r : Resolved) : Word := readValue r.va r.st

/-- `y = read(b)`, read in the execute phase, after both resolutions. -/
def Resolved.y (r : Resolved) : Word := readValue r.vb r.st

/-- From the PC of a JSR's word: fetch the word, resolve `a`. -/
def resolveOne (a : Operand) (s : State) : Value × State := resolve a (fetchWord s).2

/-- What resolution does to SP (R83): +1 for POP, -1 for PUSH, each modulo 2^16. -/
def spDelta : Operand → Word
  | .pop => 1
  | .push => -1
  | .reg _ | .regInd _ | .nextRegInd _ | .peek | .sp | .pc | .o | .nextInd | .nextLit | .lit _ => 0

/-- Resolve a list of operands in order, for the side effects alone. -/
def resolveEffects : List Operand → State → State
  | [], s => s
  | c :: cs, s => resolveEffects cs (resolve c s).2

end Sys2Proof.Machine
end

