-- ==== Sys2Proof/Machine/Alu.lean ====
section
/-! DEFINITION. The ALU block (spec/42_alu.md R99): for each opcode, the result, the overflow word and the skip request with
their enables, as a function of `x` and `y` alone; and the execute phase that applies them (41_step_control.md R86). -/

namespace Sys2Proof.Machine

/-- `ALU(op, x, y)` (R99): `result` is `r` when `wa`, `overflow` is `ov` when `wo`, `skip` is `sk`. -/
structure AluOut where
  result : Option Word
  overflow : Option Word
  skip : Bool
deriving DecidableEq, Repr

/-- SET (R102). -/
def aluSet (_ y : Word) : AluOut := ⟨some y, none, false⟩

/-- ADD (R103). -/
def aluAdd (x y : Word) : AluOut := ⟨some (wrap16 (x.toNat + y.toNat)), some (addOverflow x y), false⟩

/-- SUB (R104): the mathematical remainder of the exact difference, in `[0, 2^16)`. -/
def aluSub (x y : Word) : AluOut :=
  ⟨some (BitVec.ofInt 16 ((x.toNat : Int) - (y.toNat : Int))), some (subOverflow x y), false⟩

/-- MUL (R105). -/
def aluMul (x y : Word) : AluOut := ⟨some (wrap16 (x.toNat * y.toNat)), some (mulOverflow x y), false⟩

/-- DIV (R106): a zero divisor gives 0 and is no error. -/
def aluDiv (x y : Word) : AluOut :=
  ⟨some (if y.toNat = 0 then 0x0000 else wrap16 (x.toNat / y.toNat)), some (divOverflow x y), false⟩

/-- MOD (R107): a zero divisor gives 0; O is not written. -/
def aluMod (x y : Word) : AluOut := ⟨some (if y.toNat = 0 then 0x0000 else wrap16 (x.toNat % y.toNat)), none, false⟩

/-- SHL (R108). -/
def aluShl (x y : Word) : AluOut := ⟨some (wrap16 (x.toNat * 2 ^ y.toNat)), some (shlOverflow x y), false⟩

/-- SHR (R109). -/
def aluShr (x y : Word) : AluOut := ⟨some (wrap16 (x.toNat / 2 ^ y.toNat)), some (shrOverflow x y), false⟩

/-- AND (R110). -/
def aluAnd (x y : Word) : AluOut := ⟨some (x &&& y), none, false⟩

/-- BOR (R111). -/
def aluBor (x y : Word) : AluOut := ⟨some (x ||| y), none, false⟩

/-- XOR (R112). -/
def aluXor (x y : Word) : AluOut := ⟨some (x ^^^ y), none, false⟩

/-- IFE (R115). -/
def aluIfe (x y : Word) : AluOut := ⟨none, none, ifeSkips x y⟩

/-- IFN (R116). -/
def aluIfn (x y : Word) : AluOut := ⟨none, none, ifnSkips x y⟩

/-- IFG (R117). -/
def aluIfg (x y : Word) : AluOut := ⟨none, none, ifgSkips x y⟩

/-- IFB (R118). -/
def aluIfb (x y : Word) : AluOut := ⟨none, none, ifbSkips x y⟩

/-- `if wa: write(va, r)`. -/
def writeResult (va : Value) (r : Option Word) (s : State) : State :=
  match r with
  | some v => writeValue va v s
  | none => s

/-- `if wo: o <- ov`. -/
def writeOverflow (ov : Option Word) (s : State) : State :=
  match ov with
  | some v => s.setO v
  | none => s

/-- `if sk: skip <- 1`. -/
def requestSkip (sk : Bool) (s : State) : State := if sk then s.setSkip true else s

/-- The write-back of R86, in its order: `a`, then O (41_step_control.md R94, decision D4, log 6), then Skip. -/
def writeBack (va : Value) (out : AluOut) (s : State) : State :=
  requestSkip out.skip (writeOverflow out.overflow (writeResult va out.result s))

/-- A basic instruction that is not skipped, from the PC of its word (41_step_control.md R84, R86): fetch, resolve `a` then
`b`, read `x` and `y`, write back. It always completes (R101). -/
def execBasic (alu : Word → Word → AluOut) (a b : Operand) (s : State) : Result :=
  let r := resolveTwo a b s
  .next (writeBack r.va (alu r.x r.y) r.st)

end Sys2Proof.Machine
end

