-- ==== Sys2Proof/Machine/Arith.lean ====
section
/-! DEFINITION. The meanings of SET, ADD, SUB, MUL, DIV and MOD (spec/42_alu.md R102 to R107). -/

namespace Sys2Proof.Machine

/-- SET a, b (R102). -/
def execSet (a b : Operand) (s : State) : Result := execBasic aluSet a b s

/-- ADD a, b (R103). -/
def execAdd (a b : Operand) (s : State) : Result := execBasic aluAdd a b s

/-- SUB a, b (R104). -/
def execSub (a b : Operand) (s : State) : Result := execBasic aluSub a b s

/-- MUL a, b (R105). -/
def execMul (a b : Operand) (s : State) : Result := execBasic aluMul a b s

/-- DIV a, b (R106). -/
def execDiv (a b : Operand) (s : State) : Result := execBasic aluDiv a b s

/-- MOD a, b (R107). -/
def execMod (a b : Operand) (s : State) : Result := execBasic aluMod a b s

end Sys2Proof.Machine
end

