-- ==== Sys2Proof/Machine/Cond.lean ====
section
/-! DEFINITION. The meanings of IFE, IFN, IFG and IFB (spec/43_conditionals.md R114 to R118). -/

namespace Sys2Proof.Machine

/-- IFE a, b (R115). -/
def execIfe (a b : Operand) (s : State) : Result := execBasic aluIfe a b s

/-- IFN a, b (R116). -/
def execIfn (a b : Operand) (s : State) : Result := execBasic aluIfn a b s

/-- IFG a, b (R117). -/
def execIfg (a b : Operand) (s : State) : Result := execBasic aluIfg a b s

/-- IFB a, b (R118). -/
def execIfb (a b : Operand) (s : State) : Result := execBasic aluIfb a b s

end Sys2Proof.Machine
end

