-- ==== Sys2Proof/Machine/Logic.lean ====
section
/-! DEFINITION. The meanings of SHL, SHR, AND, BOR and XOR (spec/42_alu.md R108 to R112). -/

namespace Sys2Proof.Machine

/-- SHL a, b (R108). -/
def execShl (a b : Operand) (s : State) : Result := execBasic aluShl a b s

/-- SHR a, b (R109). -/
def execShr (a b : Operand) (s : State) : Result := execBasic aluShr a b s

/-- AND a, b (R110). -/
def execAnd (a b : Operand) (s : State) : Result := execBasic aluAnd a b s

/-- BOR a, b (R111). -/
def execBor (a b : Operand) (s : State) : Result := execBasic aluBor a b s

/-- XOR a, b (R112). -/
def execXor (a b : Operand) (s : State) : Result := execBasic aluXor a b s

end Sys2Proof.Machine
end

