-- ==== Sys2Proof/Machine/NonBasic.lean ====
section
/-! DEFINITION. The meanings of the non-basic words: JSR (spec/44_nonbasic.md R119) and the reserved words, which raise the
illegal instruction (60_exceptions.md R120, R121). -/

namespace Sys2Proof.Machine

/-- `executeJSR(va)` (R119): read the target first, push the address of the word after the instruction, jump. -/
def callTo (va : Value) (s : State) : State :=
  let x := readValue va s
  (pushWord s.pc s).setPc x

/-- JSR a (R119), from the PC of its word. -/
def execJsr (a : Operand) (s : State) : Result :=
  let r := resolveOne a s
  .next (callTo r.1 r.2)

/-- A reserved non-basic word (30_encoding.md R57): the step fails before any operand is resolved (R120), carrying the word
and the PC it was fetched from, with no cell changed (R121, decision D6, log 4). -/
def execReserved (nbop a : BitVec 6) (s : State) : Result := raiseIllegal (encode (.reserved nbop a)) s.pc

end Sys2Proof.Machine
end

