-- ==== Sys2Proof/Machine/Skip.lean ====
section
/-! DEFINITION. What a step does with an instruction it skips (spec/41_step_control.md R88, R89, R92). -/

namespace Sys2Proof.Machine

/-- The state a skipped instruction leaves: its words are consumed and its operands resolved in full (R88), nothing is read
or written through them, and Skip is cleared (R89). -/
def skipOver (i : Instr) (s : State) : State := (resolveEffects i.operands (fetchWord s).2).setSkip false

/-- A step whose Skip was set: a reserved word raises the fault all the same, since it is decoded before Skip is tested
(R92, decision D7, log 4). -/
def skipInstr (i : Instr) (s : State) : Result :=
  match i with
  | .reserved nbop a => raiseIllegal (encode (.reserved nbop a)) s.pc
  | .set _ _ | .add _ _ | .sub _ _ | .mul _ _ | .div _ _ | .mod _ _ => .next (skipOver i s)
  | .shl _ _ | .shr _ _ | .and _ _ | .bor _ _ | .xor _ _ => .next (skipOver i s)
  | .ife _ _ | .ifn _ _ | .ifg _ _ | .ifb _ _ | .jsr _ => .next (skipOver i s)

end Sys2Proof.Machine
end

