-- ==== Sys2Proof/Machine/Step.lean ====
section
/-! DEFINITION. The sequencer (spec/41_step_control.md R84): sample Skip, read the word at PC, decode it, and run or skip the
instruction. Advancing PC past the words is part of both `exec` and `skipInstr`, which start at the instruction's word. -/

namespace Sys2Proof.Machine

/-- The instruction at PC (R84, point 2). -/
def fetchInstr (s : State) : Instr := decodeWord (fetchWord s).1

/-- One `step` (R84): "advances the machine by one logical instruction". -/
def step (s : State) : Host.Outcome State Fault Refusal :=
  if s.skip then skipInstr (fetchInstr s) s else exec (fetchInstr s) s

/-- `s` with the instruction of the table word `w` (`nbits` bits, zero above, three words) stored where `step` fetches, and
Skip clear, so that the next step runs it (log 12). -/
def State.withFetchWord (s : State) (nbits w : Nat) : State :=
  { s with ram := s.ram.writeList s.pc (tableWords nbits w), skip := false }

end Sys2Proof.Machine
end

