-- ==== Sys2Proof/Machine/HostInterface.lean ====
section
/-! DEFINITION. What the host does between steps (spec/70_reset_and_hazards.md R134, R137): load a program, read and write any
cell. Construction is `State.reset`; `load` and `store` of Machine/Ops.lean are the host's too; a run is `Host.Core.run`. -/

namespace Sys2Proof.Machine

/-- `loadProgram(ws)` (R134): `ws[i]` to `Ram(i)`, no other cell; a stream longer than RAM is refused (D14, log 11). -/
def loadProgram (ws : List Word) (s : State) : Result :=
  if ws.length ≤ Config.ramWords then .next { s with ram := s.ram.writeList 0x0000 ws }
  else .refused (.programTooLong ws.length)

/-- The words of a byte image, the more significant byte first (20_memory.md R39); none for an odd number of bytes. -/
def wordsOfBytes : List Byte → Option (List Word)
  | [] => some []
  | [_] => none
  | hi :: lo :: rest => (wordsOfBytes rest).map (fun ws => (hi ++ lo) :: ws)

/-- Load an object file (R39, R134): an odd number of bytes is refused (D14, log 11). -/
def loadImage (bytes : List Byte) (s : State) : Result :=
  match wordsOfBytes bytes with
  | some ws => loadProgram ws s
  | none => .refused (.oddImage bytes.length)

/-- The host's read of the reserved Cycles cell (10_state.md R26, R137). -/
def loadCycles (s : State) : Word := s.cycles

/-- The host's write of the reserved Cycles cell (10_state.md R26, R137). -/
def storeCycles (v : Word) (s : State) : State := s.setCycles v

end Sys2Proof.Machine
end

