-- ==== Sys2Proof/Safety.lean ====
section
/-! DEFINITION. What counts as a safe run, and the words the statements are written in: where an instruction writes, what it
leaves unchanged, when a conditional fails. Everything here is computed with the functions the meanings themselves use. -/

namespace Sys2Proof.Machine

/-- The word is a reserved non-basic word, "Unknown opcode" (spec/30_encoding.md R57). -/
def isReserved : Instr → Bool
  | .reserved _ _ => true
  | .set _ _ | .add _ _ | .sub _ _ | .mul _ _ | .div _ _ | .mod _ _ => false
  | .shl _ _ | .shr _ _ | .and _ _ | .bor _ _ | .xor _ _ => false
  | .ife _ _ | .ifn _ _ | .ifg _ _ | .ifb _ _ | .jsr _ => false

/-- The next step of a safe run completes: the word at PC is no reserved word (60_exceptions.md R120, "No instruction other
than a reserved non-basic word raises it"). -/
def StepSafe (s : State) : Prop := isReserved (fetchInstr s) = false

/-- The invariant of the representation: memory is in its canonical form (log 1). -/
def State.Inv (s : State) : Prop := s.ram.wf = true

/-- The opcodes that write `a`, with their two operands (42_alu.md R102 to R112). -/
def writesA : Instr → Option (Operand × Operand)
  | .set a b | .add a b | .sub a b | .mul a b | .div a b | .mod a b => some (a, b)
  | .shl a b | .shr a b | .and a b | .bor a b | .xor a b => some (a, b)
  | .ife _ _ | .ifn _ _ | .ifg _ _ | .ifb _ _ | .jsr _ | .reserved _ _ => none

/-- The opcodes that define O as a side effect (10_state.md R21, 90_conflicts.md C7). -/
def definesO : Instr → Bool
  | .add _ _ | .sub _ _ | .mul _ _ | .div _ _ | .shl _ _ | .shr _ _ => true
  | .set _ _ | .mod _ _ | .and _ _ | .bor _ _ | .xor _ _ => false
  | .ife _ _ | .ifn _ _ | .ifg _ _ | .ifb _ _ | .jsr _ | .reserved _ _ => false

/-- The cell an executed instruction writes through its operand `a`, from the state at its word; none for an opcode that
writes no operand and for a literal, whose write is discarded (40_operand_resolution.md R72). -/
def destination (i : Instr) (s : State) : Option Address :=
  match writesA i with
  | some (a, b) =>
    match (resolveTwo a b s).va with
    | .addr c => some c
    | .lit _ => none
  | none => none

/-- The RAM word an executed instruction stores to: its destination when that is a RAM word, or JSR's stack slot, one below
the SP that resolution leaves (44_nonbasic.md R119). -/
def storeAddress (i : Instr) (s : State) : Option Word :=
  match i, destination i s with
  | .jsr a, _ => some ((resolveOne a s).2.sp - 1)
  | _, some (.ram w) => some w
  | _, some _ => none
  | _, none => none

/-- The ALU function and the operands of a basic instruction. -/
def aluOf : Instr → Option ((Word → Word → AluOut) × Operand × Operand)
  | .set a b => some (aluSet, a, b)
  | .add a b => some (aluAdd, a, b)
  | .sub a b => some (aluSub, a, b)
  | .mul a b => some (aluMul, a, b)
  | .div a b => some (aluDiv, a, b)
  | .mod a b => some (aluMod, a, b)
  | .shl a b => some (aluShl, a, b)
  | .shr a b => some (aluShr, a, b)
  | .and a b => some (aluAnd, a, b)
  | .bor a b => some (aluBor, a, b)
  | .xor a b => some (aluXor, a, b)
  | .ife a b => some (aluIfe, a, b)
  | .ifn a b => some (aluIfn, a, b)
  | .ifg a b => some (aluIfg, a, b)
  | .ifb a b => some (aluIfb, a, b)
  | .jsr _ | .reserved _ _ => none

/-- The executed conditional's condition fails (43_conditionals.md R115 to R118), `x` and `y` read after both resolutions. -/
def conditionFails (i : Instr) (s : State) : Prop :=
  match i with
  | .ife a b => (resolveTwo a b s).x ≠ (resolveTwo a b s).y
  | .ifn a b => (resolveTwo a b s).x = (resolveTwo a b s).y
  | .ifg a b => (resolveTwo a b s).x.toNat ≤ (resolveTwo a b s).y.toNat
  | .ifb a b => (resolveTwo a b s).x &&& (resolveTwo a b s).y = 0
  | .set _ _ | .add _ _ | .sub _ _ | .mul _ _ | .div _ _ | .mod _ _ => False
  | .shl _ _ | .shr _ _ | .and _ _ | .bor _ _ | .xor _ _ | .jsr _ | .reserved _ _ => False

/-- PC after the words of an instruction with the operands `os` (41_step_control.md R95, case 3). -/
def pcAfter (os : List Operand) (s : State) : Word := s.pc + 1 + BitVec.ofNat 16 (os.map Operand.extraWords).sum

/-- The word an executed instruction stores to RAM where `storeAddress` names an address: the result of an opcode that writes
`a` (42_alu.md R102 to R112), or the return address a JSR pushes (44_nonbasic.md R119). -/
def storedWord (i : Instr) (s : State) : Option Word :=
  match i, aluOf i with
  | .jsr a, _ => some (pcAfter [a] s)
  | _, some (alu, a, b) => (alu (resolveTwo a b s).x (resolveTwo a b s).y).result
  | _, none => none

/-- SP after the operands `os` are resolved (41_step_control.md R96, first part). -/
def spAfter (os : List Operand) (s : State) : Word := s.sp + (os.map spDelta).sum

/-- What a basic instruction with the operands `a` and `b` leaves unchanged, from the state `s` at its word to the state `t`
after it, when the Value of `a` is `dest`: every register and RAM word but `dest`; SP but for the operands' PUSH and POP; PC
but for the words consumed; Cycles. O and Skip are each opcode's own matter. -/
structure BasicFrame (dest : Value) (a b : Operand) (s t : State) : Prop where
  registers : ∀ r, dest ≠ .addr (.register r) → t.getReg r = s.getReg r
  memory : ∀ w, dest ≠ .addr (.ram w) → t.readRam w = s.readRam w
  stackPointer : dest ≠ .addr .sp → t.sp = spAfter [a, b] s
  programCounter : dest ≠ .addr .pc → t.pc = pcAfter [a, b] s
  cycles : t.cycles = s.cycles

/-- What an instruction that writes no operand leaves unchanged: every register, every RAM word, O, Cycles; SP and PC but for
the operands `os` (43_conditionals.md R114, 41_step_control.md R88). -/
structure ReadOnlyFrame (os : List Operand) (s t : State) : Prop where
  registers : ∀ r, t.getReg r = s.getReg r
  memory : ∀ w, t.readRam w = s.readRam w
  overflow : t.o = s.o
  stackPointer : t.sp = spAfter os s
  programCounter : t.pc = pcAfter os s
  cycles : t.cycles = s.cycles

end Sys2Proof.Machine
end

