-- ==== Sys2Proof/Certificates/Slice0/Obligations.lean ====
section
/-! DEFINITION. The statements for the provers, in the words of Sys2Proof/Safety.lean. `resolveTwo a b s` is what the fetch and
the two resolutions of a basic instruction give from the state `s` at its word: the Values `va` and `vb` and the state in which
it executes; `.x` and `.y` are `read(a)` and `read(b)` there, after both resolutions (spec decision D5, log 7). -/

open Sys2Proof Sys2Proof.Machine


/-! ### Encoding (30_encoding.md) -/

/-- The decoder vectors of spec/95_test_vectors.md section 2.1 (opcode numbers from 3 up are decision D3, log 5). -/
def Obligations.SpecWordsDecodeAsListed : Prop :=
  decodeWord 0x7C01 = .set (.reg .a) .nextLit ∧ decodeWord 0x7DE1 = .set .nextInd .nextLit ∧
  decodeWord 0x8402 = .add (.reg .a) (.lit 1) ∧ decodeWord 0x61C1 = .set .pc .pop ∧
  decodeWord 0x7D01 = .set (.nextRegInd .a) .nextLit ∧ decodeWord 0x0010 = .jsr (.reg .a) ∧
  decodeWord 0x7C10 = .jsr .nextLit ∧ decodeWord 0x9810 = .jsr (.lit 6) ∧
  decodeWord 0x0000 = .reserved 0x00 0x00 ∧ decodeWord 0x0020 = .reserved 0x02 0x00 ∧
  decodeWord 0xFFF0 = .reserved 0x3F 0x3F ∧ decodeWord 0xFFFF = .ifb (.lit 0x1F) (.lit 0x1F)

/-- R66: hand-encoding is the inverse of `decode`. The opcode and register numbers are decision D3 (log 5). -/
def Obligations.DecodeOfEncodeIsTheInstruction : Prop :=
  ∀ i : Instr, i.wf = true → decodeWord (encode i) = i

/-- R54: `decode` is total, each word yields exactly one outcome. -/
def Obligations.EveryWordIsTheEncodingOfItsDecoding : Prop :=
  ∀ w : Word, (decodeWord w).wf = true ∧ encode (decodeWord w) = w

/-- R49, R50 with the numbers of R56 and R57 (0x3..0xF are the spec's decision D3, log 5). -/
def Obligations.WordsAreBuiltAsTheFormatsSay : Prop :=
  (∀ a b, (encode (.set a b)).toNat = (encodeOperand b).toNat * 1024 + (encodeOperand a).toNat * 16 + 0x1) ∧
  (∀ a b, (encode (.add a b)).toNat = (encodeOperand b).toNat * 1024 + (encodeOperand a).toNat * 16 + 0x2) ∧
  (∀ a b, (encode (.sub a b)).toNat = (encodeOperand b).toNat * 1024 + (encodeOperand a).toNat * 16 + 0x3) ∧
  (∀ a b, (encode (.mul a b)).toNat = (encodeOperand b).toNat * 1024 + (encodeOperand a).toNat * 16 + 0x4) ∧
  (∀ a b, (encode (.div a b)).toNat = (encodeOperand b).toNat * 1024 + (encodeOperand a).toNat * 16 + 0x5) ∧
  (∀ a b, (encode (.mod a b)).toNat = (encodeOperand b).toNat * 1024 + (encodeOperand a).toNat * 16 + 0x6) ∧
  (∀ a b, (encode (.shl a b)).toNat = (encodeOperand b).toNat * 1024 + (encodeOperand a).toNat * 16 + 0x7) ∧
  (∀ a b, (encode (.shr a b)).toNat = (encodeOperand b).toNat * 1024 + (encodeOperand a).toNat * 16 + 0x8) ∧
  (∀ a b, (encode (.and a b)).toNat = (encodeOperand b).toNat * 1024 + (encodeOperand a).toNat * 16 + 0x9) ∧
  (∀ a b, (encode (.bor a b)).toNat = (encodeOperand b).toNat * 1024 + (encodeOperand a).toNat * 16 + 0xA) ∧
  (∀ a b, (encode (.xor a b)).toNat = (encodeOperand b).toNat * 1024 + (encodeOperand a).toNat * 16 + 0xB) ∧
  (∀ a b, (encode (.ife a b)).toNat = (encodeOperand b).toNat * 1024 + (encodeOperand a).toNat * 16 + 0xC) ∧
  (∀ a b, (encode (.ifn a b)).toNat = (encodeOperand b).toNat * 1024 + (encodeOperand a).toNat * 16 + 0xD) ∧
  (∀ a b, (encode (.ifg a b)).toNat = (encodeOperand b).toNat * 1024 + (encodeOperand a).toNat * 16 + 0xE) ∧
  (∀ a b, (encode (.ifb a b)).toNat = (encodeOperand b).toNat * 1024 + (encodeOperand a).toNat * 16 + 0xF) ∧
  (∀ a, (encode (.jsr a)).toNat = (encodeOperand a).toNat * 1024 + 0x01 * 16) ∧
  (∀ nbop a, (encode (.reserved nbop a)).toNat = a.toNat * 1024 + nbop.toNat * 16)

/-- R120: the words that raise the illegal instruction; R57: the 63 reserved codes. -/
def Obligations.ReservedWordsAreTheUnknownNonBasicCodes : Prop :=
  ∀ w : Word, isReserved (decodeWord w) = true ↔ w.toNat % 16 = 0 ∧ w.toNat / 16 % 64 ≠ 1

/-- R51, R66: the instruction word, then the extra words in operand order; the first word alone fixes the length. -/
def Obligations.UnitsRoundTripThroughAStream : Prop :=
  (∀ (i : Instr) (extra rest : List Word), unitWf i extra = true →
    decodeUnit (encodeUnit i extra ++ rest) = .ok (i, extra, rest)) ∧
  (∀ (ws : List Word) (i : Instr) (extra rest : List Word), decodeUnit ws = .ok (i, extra, rest) →
    unitWf i extra = true ∧ encodeUnit i extra ++ rest = ws)

/-- R60, with the PC advance of the resolver. -/
def Obligations.ExtraWordsFollowTheOperandCode : Prop :=
  ∀ (c : BitVec 6) (s : State),
    (decodeOperand c).extraWords =
      (if (0x10 ≤ c.toNat ∧ c.toNat ≤ 0x17) ∨ c.toNat = 0x1E ∨ c.toNat = 0x1F then 1 else 0) ∧
    (resolve (decodeOperand c) s).2.pc = s.pc + BitVec.ofNat 16 (decodeOperand c).extraWords

/-! ### Operand resolution (40_operand_resolution.md) -/

/-- R13, R59, R69, R73 to R82, by operand code (the numbers of B to J are decision D3, log 5). -/
def Obligations.ResolverFollowsTheOperandCodeTable : Prop :=
  (decodeOperand 0x00 = .reg .a ∧ decodeOperand 0x01 = .reg .b ∧ decodeOperand 0x02 = .reg .c ∧
    decodeOperand 0x03 = .reg .x ∧ decodeOperand 0x04 = .reg .y ∧ decodeOperand 0x05 = .reg .z ∧
    decodeOperand 0x06 = .reg .i ∧ decodeOperand 0x07 = .reg .j) ∧
  (Reg.a.code = 0x00 ∧ Reg.b.code = 0x01 ∧ Reg.c.code = 0x02 ∧ Reg.x.code = 0x03 ∧
    Reg.y.code = 0x04 ∧ Reg.z.code = 0x05 ∧ Reg.i.code = 0x06 ∧ Reg.j.code = 0x07) ∧
  ∀ (s : State) (r : Reg) (n : BitVec 5),
    resolve (decodeOperand r.code) s = (.addr (.register r), s) ∧
    resolve (decodeOperand (0x08 + r.code)) s = (.addr (.ram (s.getReg r)), s) ∧
    resolve (decodeOperand (0x10 + r.code)) s = (.addr (.ram (s.readRam s.pc + s.getReg r)), s.setPc (s.pc + 1)) ∧
    resolve (decodeOperand 0x18) s = (.addr (.ram s.sp), s.setSp (s.sp + 1)) ∧
    resolve (decodeOperand 0x19) s = (.addr (.ram s.sp), s) ∧
    resolve (decodeOperand 0x1A) s = (.addr (.ram (s.sp - 1)), s.setSp (s.sp - 1)) ∧
    resolve (decodeOperand 0x1B) s = (.addr .sp, s) ∧
    resolve (decodeOperand 0x1C) s = (.addr .pc, s) ∧
    resolve (decodeOperand 0x1D) s = (.addr .o, s) ∧
    resolve (decodeOperand 0x1E) s = (.addr (.ram (s.readRam s.pc)), s.setPc (s.pc + 1)) ∧
    resolve (decodeOperand 0x1F) s = (.lit (s.readRam s.pc), s.setPc (s.pc + 1)) ∧
    resolve (decodeOperand (0x20 + n.setWidth 6)) s = (.lit (BitVec.ofNat 16 n.toNat), s)

/-- R68 and the side-effect table R83; R67: never `Addr(Skip)`. -/
def Obligations.ResolutionChangesOnlyPcAndSp : Prop :=
  ∀ (c : Operand) (s : State),
    (resolve c s).1 ≠ .addr .skip ∧
    (resolve c s).2.regs = s.regs ∧ (resolve c s).2.o = s.o ∧ (resolve c s).2.skip = s.skip ∧
    (resolve c s).2.cycles = s.cycles ∧ (resolve c s).2.ram = s.ram ∧
    (resolve c s).2.pc = s.pc + BitVec.ofNat 16 c.extraWords ∧
    (resolve c s).2.sp = (if c = .pop then s.sp + 1 else if c = .push then s.sp - 1 else s.sp)

/-- R70: the extra word of `a` is the word right after the instruction word; R46: own words are fetched before the write. -/
def Obligations.ExtraWordsAreFetchedInOperandOrder : Prop :=
  ∀ s : State, ∃ t, exec (.set .nextInd .nextLit) s = .next t ∧
    t.readRam (s.readRam (s.pc + 1)) = s.readRam (s.pc + 2) ∧
    (∀ w, w ≠ s.readRam (s.pc + 1) → t.readRam w = s.readRam w) ∧
    t.pc = s.pc + 3 ∧ t.sp = s.sp ∧ t.regs = s.regs ∧ t.o = s.o ∧ t.skip = s.skip ∧ t.cycles = s.cycles

/-- R70, R71, R76 to R78 and the vectors of 95_test_vectors.md section 2.2: the nine pairs, then a register as destination. -/
def Obligations.StackOperandsMoveInOrder : Prop :=
  ∀ s : State,
    (∃ t, exec (.set .pop .pop) s = .next t ∧ t.sp = s.sp + 2 ∧ t.readRam s.sp = s.readRam (s.sp + 1) ∧
      ∀ w, w ≠ s.sp → t.readRam w = s.readRam w) ∧
    (∃ t, exec (.set .push .pop) s = .next t ∧ t.sp = s.sp ∧ ∀ w, t.readRam w = s.readRam w) ∧
    (∃ t, exec (.set .peek .pop) s = .next t ∧ t.sp = s.sp + 1 ∧ ∀ w, t.readRam w = s.readRam w) ∧
    (∃ t, exec (.set .pop .peek) s = .next t ∧ t.sp = s.sp + 1 ∧ t.readRam s.sp = s.readRam (s.sp + 1) ∧
      ∀ w, w ≠ s.sp → t.readRam w = s.readRam w) ∧
    (∃ t, exec (.set .push .peek) s = .next t ∧ t.sp = s.sp - 1 ∧ ∀ w, t.readRam w = s.readRam w) ∧
    (∃ t, exec (.set .peek .peek) s = .next t ∧ t.sp = s.sp ∧ ∀ w, t.readRam w = s.readRam w) ∧
    (∃ t, exec (.set .pop .push) s = .next t ∧ t.sp = s.sp ∧ ∀ w, t.readRam w = s.readRam w) ∧
    (∃ t, exec (.set .push .push) s = .next t ∧ t.sp = s.sp - 2 ∧ t.readRam (s.sp - 1) = s.readRam (s.sp - 2) ∧
      ∀ w, w ≠ s.sp - 1 → t.readRam w = s.readRam w) ∧
    (∃ t, exec (.set .peek .push) s = .next t ∧ t.sp = s.sp - 1 ∧ t.readRam s.sp = s.readRam (s.sp - 1) ∧
      ∀ w, w ≠ s.sp → t.readRam w = s.readRam w) ∧
    ∀ r : Reg,
      (∃ t, exec (.set (.reg r) .pop) s = .next t ∧ t.getReg r = s.readRam s.sp ∧ t.sp = s.sp + 1 ∧
        ∀ w, t.readRam w = s.readRam w) ∧
      (∃ t, exec (.set (.reg r) .peek) s = .next t ∧ t.getReg r = s.readRam s.sp ∧ t.sp = s.sp ∧
        ∀ w, t.readRam w = s.readRam w) ∧
      (∃ t, exec (.set (.reg r) .push) s = .next t ∧ t.getReg r = s.readRam (s.sp - 1) ∧ t.sp = s.sp - 1 ∧
        ∀ w, t.readRam w = s.readRam w)

/-- R93, which is the spec's own decision D5 (log 7): `x` and `y` are read after both resolutions. -/
def Obligations.SpecialCellsAreReadAfterResolution : Prop :=
  ∀ (s : State) (r : Reg),
    (∃ t, exec (.set .push .sp) s = .next t ∧ t.sp = s.sp - 1 ∧ t.readRam (s.sp - 1) = s.sp - 1) ∧
    (∃ t, exec (.set (.reg r) .pc) s = .next t ∧ t.getReg r = s.pc + 1 ∧ t.pc = s.pc + 1)

/-! ### The opcodes that write `a` (42_alu.md) -/

/-- R102 with its frame. `x`, `y` are read after both resolutions (decision D5, log 7). -/
def Obligations.SetCopiesTheSource : Prop :=
  ∀ (a b : Operand) (s : State),
    let r := resolveTwo a b s
    ∃ t, exec (.set a b) s = .next t ∧
      (∀ c, r.va = .addr c → load c t = r.y) ∧
      (r.va ≠ .addr .o → t.o = s.o) ∧
      t.skip = s.skip ∧ BasicFrame r.va a b s t

/-- R103 with its frame. `x`, `y` are read after both resolutions (decision D5, log 7); O is written last (R94, decision D4, log 6). -/
def Obligations.AddWritesTheSumAndTheCarry : Prop :=
  ∀ (a b : Operand) (s : State),
    let r := resolveTwo a b s
    ∃ t, exec (.add a b) s = .next t ∧
      (∀ c, r.va = .addr c → c ≠ .o → (load c t).toNat = (r.x.toNat + r.y.toNat) % 65536) ∧
      t.o = (if r.x.toNat + r.y.toNat ≥ 65536 then 0x0001 else 0x0000) ∧
      t.skip = s.skip ∧ BasicFrame r.va a b s t

/-- R104 with its frame. `x`, `y` are read after both resolutions (decision D5, log 7); O is written last (R94, decision D4, log 6). -/
def Obligations.SubWritesTheDifferenceAndTheBorrow : Prop :=
  ∀ (a b : Operand) (s : State),
    let r := resolveTwo a b s
    ∃ t, exec (.sub a b) s = .next t ∧
      (∀ c, r.va = .addr c → c ≠ .o → (load c t).toNat = (r.x.toNat + 65536 - r.y.toNat) % 65536) ∧
      t.o = (if r.x.toNat < r.y.toNat then 0xFFFF else 0x0000) ∧
      t.skip = s.skip ∧ BasicFrame r.va a b s t

/-- R105 with its frame. `x`, `y` are read after both resolutions (decision D5, log 7); O is written last (R94, decision D4, log 6). -/
def Obligations.MulWritesTheTwoHalvesOfTheProduct : Prop :=
  ∀ (a b : Operand) (s : State),
    let r := resolveTwo a b s
    ∃ t, exec (.mul a b) s = .next t ∧
      (∀ c, r.va = .addr c → c ≠ .o → t.o.toNat * 65536 + (load c t).toNat = r.x.toNat * r.y.toNat) ∧
      t.o.toNat = r.x.toNat * r.y.toNat / 65536 ∧
      t.skip = s.skip ∧ BasicFrame r.va a b s t

/-- R106 with its frame. `x`, `y` are read after both resolutions (decision D5, log 7); O is written last (R94, decision D4, log 6). -/
def Obligations.DivWritesTheQuotientAndTheFraction : Prop :=
  ∀ (a b : Operand) (s : State),
    let r := resolveTwo a b s
    ∃ t, exec (.div a b) s = .next t ∧
      (∀ c, r.va = .addr c → c ≠ .o → (load c t).toNat = (if r.y = 0 then 0 else r.x.toNat / r.y.toNat)) ∧
      t.o.toNat = (if r.y = 0 then 0 else r.x.toNat * 65536 / r.y.toNat % 65536) ∧
      t.skip = s.skip ∧ BasicFrame r.va a b s t

/-- R107 with its frame. `x`, `y` are read after both resolutions (decision D5, log 7). -/
def Obligations.ModWritesTheRemainder : Prop :=
  ∀ (a b : Operand) (s : State),
    let r := resolveTwo a b s
    ∃ t, exec (.mod a b) s = .next t ∧
      (∀ c, r.va = .addr c → (load c t).toNat = (if r.y = 0 then 0 else r.x.toNat % r.y.toNat)) ∧
      (r.va ≠ .addr .o → t.o = s.o) ∧
      t.skip = s.skip ∧ BasicFrame r.va a b s t

/-- R108 with its frame. `x`, `y` are read after both resolutions (decision D5, log 7); O is written last (R94, decision D4, log 6). -/
def Obligations.ShlWritesTheShiftAndTheBitsAbove : Prop :=
  ∀ (a b : Operand) (s : State),
    let r := resolveTwo a b s
    ∃ t, exec (.shl a b) s = .next t ∧
      (∀ c, r.va = .addr c → c ≠ .o → (load c t).toNat = r.x.toNat * 2 ^ r.y.toNat % 65536) ∧
      t.o.toNat = r.x.toNat * 2 ^ r.y.toNat / 65536 % 65536 ∧
      t.skip = s.skip ∧ BasicFrame r.va a b s t

/-- R109 with its frame. `x`, `y` are read after both resolutions (decision D5, log 7); O is written last (R94, decision D4, log 6). -/
def Obligations.ShrWritesTheShiftAndTheBitsBelow : Prop :=
  ∀ (a b : Operand) (s : State),
    let r := resolveTwo a b s
    ∃ t, exec (.shr a b) s = .next t ∧
      (∀ c, r.va = .addr c → c ≠ .o → (load c t).toNat = r.x.toNat / 2 ^ r.y.toNat) ∧
      t.o.toNat = r.x.toNat * 65536 / 2 ^ r.y.toNat % 65536 ∧
      t.skip = s.skip ∧ BasicFrame r.va a b s t

/-- R110 with its frame. `x`, `y` are read after both resolutions (decision D5, log 7). -/
def Obligations.AndWritesTheBitwiseAnd : Prop :=
  ∀ (a b : Operand) (s : State),
    let r := resolveTwo a b s
    ∃ t, exec (.and a b) s = .next t ∧
      (∀ c, r.va = .addr c → ∀ k < 16, (load c t).getLsbD k = (r.x.getLsbD k && r.y.getLsbD k)) ∧
      (r.va ≠ .addr .o → t.o = s.o) ∧
      t.skip = s.skip ∧ BasicFrame r.va a b s t

/-- R111 with its frame. `x`, `y` are read after both resolutions (decision D5, log 7). -/
def Obligations.BorWritesTheBitwiseOr : Prop :=
  ∀ (a b : Operand) (s : State),
    let r := resolveTwo a b s
    ∃ t, exec (.bor a b) s = .next t ∧
      (∀ c, r.va = .addr c → ∀ k < 16, (load c t).getLsbD k = (r.x.getLsbD k || r.y.getLsbD k)) ∧
      (r.va ≠ .addr .o → t.o = s.o) ∧
      t.skip = s.skip ∧ BasicFrame r.va a b s t

/-- R112 with its frame. `x`, `y` are read after both resolutions (decision D5, log 7). -/
def Obligations.XorWritesTheBitwiseExclusiveOr : Prop :=
  ∀ (a b : Operand) (s : State),
    let r := resolveTwo a b s
    ∃ t, exec (.xor a b) s = .next t ∧
      (∀ c, r.va = .addr c → ∀ k < 16, (load c t).getLsbD k = xor (r.x.getLsbD k) (r.y.getLsbD k)) ∧
      (r.va ≠ .addr .o → t.o = s.o) ∧
      t.skip = s.skip ∧ BasicFrame r.va a b s t

/-! ### The conditionals (43_conditionals.md) -/

/-- R115, R114 with its frame (decision D5, log 7). -/
def Obligations.IfeSkipsUnlessEqual : Prop :=
  ∀ (a b : Operand) (s : State),
    let r := resolveTwo a b s
    ∃ t, exec (.ife a b) s = .next t ∧ (t.skip = true ↔ s.skip = true ∨ r.x ≠ r.y) ∧ ReadOnlyFrame [a, b] s t

/-- R116, R114 with its frame (decision D5, log 7). -/
def Obligations.IfnSkipsWhenEqual : Prop :=
  ∀ (a b : Operand) (s : State),
    let r := resolveTwo a b s
    ∃ t, exec (.ifn a b) s = .next t ∧ (t.skip = true ↔ s.skip = true ∨ r.x = r.y) ∧ ReadOnlyFrame [a, b] s t

/-- R117, R114 with its frame (decision D5, log 7). -/
def Obligations.IfgSkipsUnlessGreater : Prop :=
  ∀ (a b : Operand) (s : State),
    let r := resolveTwo a b s
    ∃ t, exec (.ifg a b) s = .next t ∧ (t.skip = true ↔ s.skip = true ∨ r.x.toNat ≤ r.y.toNat) ∧ ReadOnlyFrame [a, b] s t

/-- R118, R114 with its frame (decision D5, log 7). -/
def Obligations.IfbSkipsWithoutACommonBit : Prop :=
  ∀ (a b : Operand) (s : State),
    let r := resolveTwo a b s
    ∃ t, exec (.ifb a b) s = .next t ∧ (t.skip = true ↔ s.skip = true ∨ ∀ k < 16, (r.x.getLsbD k && r.y.getLsbD k) = false) ∧ ReadOnlyFrame [a, b] s t

/-! ### The non-basic words (44_nonbasic.md, 60_exceptions.md) -/

/-- R119: operands, encoding, effect, order (the target is read first) and the skipped form. -/
def Obligations.JsrPushesTheReturnAddressAndJumps : Prop :=
  ∀ (a : Operand) (s : State),
    (encode (.jsr a)).toNat = (encodeOperand a).toNat * 1024 + 0x0010 ∧
    (∃ t, exec (.jsr a) s = .next t ∧
      t.pc = readValue (resolveOne a s).1 (resolveOne a s).2 ∧
      t.sp = spAfter [a] s - 1 ∧
      t.readRam (spAfter [a] s - 1) = pcAfter [a] s ∧
      (∀ w, w ≠ spAfter [a] s - 1 → t.readRam w = s.readRam w) ∧
      (∀ r, t.getReg r = s.getReg r) ∧ t.o = s.o ∧ t.skip = s.skip ∧ t.cycles = s.cycles) ∧
    (∃ u, skipInstr (.jsr a) s = .next u ∧ u.skip = false ∧ ReadOnlyFrame [a] s u)

/-- R57, R120, R121: a terminal fault (what it carries is decision D6, log 4). -/
def Obligations.ReservedWordsStopWithTheirWord : Prop :=
  ∀ (nbop a : BitVec 6) (s : State), nbop ≠ 0x01 →
    exec (.reserved nbop a) s =
      .fault (.illegalInstruction (BitVec.ofNat 16 (a.toNat * 1024 + nbop.toNat * 16)) s.pc)

/-! ### Consequences for single instructions -/

/-- 90_conflicts.md C2: the corrected property 3 of 95_test_vectors.md section 1.2. -/
def Obligations.SetToALiteralMovesOnlyPcAndSp : Prop :=
  ∀ (a b : Operand) (s : State), ((∃ n, a = .lit n) ∨ a = .nextLit) →
    ∃ t, exec (.set a b) s = .next t ∧ t.skip = s.skip ∧ ReadOnlyFrame [a, b] s t ∧ t.sp = s.sp + spDelta b

/-- The corner cases of R108 and R109, which are the spec's own decision D10 (log 10). The clauses on O hold where `a` is O too, which is
decision D4 (log 6, R94); `x`, `y` are read after both resolutions (decision D5, log 7). -/
def Obligations.LargeShiftCountsClearTheResult : Prop :=
  ∀ (a b : Operand) (s : State),
    let r := resolveTwo a b s
    ∃ tl tr, exec (.shl a b) s = .next tl ∧ exec (.shr a b) s = .next tr ∧
      (r.y.toNat = 16 → tl.o = r.x ∧ tr.o = r.x ∧
        ∀ c, r.va = .addr c → c ≠ .o → load c tl = 0x0000 ∧ load c tr = 0x0000) ∧
      (32 ≤ r.y.toNat → tl.o = 0x0000 ∧ tr.o = 0x0000 ∧
        ∀ c, r.va = .addr c → c ≠ .o → load c tl = 0x0000 ∧ load c tr = 0x0000)

/-- R106 and R107 together (`x`, `y` read after both resolutions: decision D5, log 7). -/
def Obligations.DivAndModSplitTheDividend : Prop :=
  ∀ (a b : Operand) (s : State) (c : Address),
    let r := resolveTwo a b s
    r.va = .addr c → c ≠ .o → r.y ≠ 0 →
    ∃ td tm, exec (.div a b) s = .next td ∧ exec (.mod a b) s = .next tm ∧
      r.x.toNat = (load c td).toNat * r.y.toNat + (load c tm).toNat ∧ (load c tm).toNat < r.y.toNat

/-- 90_conflicts.md C3: property 2 of 95_test_vectors.md section 1.2 with its preconditions (`x`, `y` read after both
resolutions: decision D5, log 7). -/
def Obligations.AddThenSubRestoresTheCell : Prop :=
  ∀ (a b : Operand) (s t1 : State) (c : Address),
    ((∃ r, c = .register r) ∨ ∃ w, c = .ram w) →
    (resolveTwo a b s).va = .addr c → exec (.add a b) s = .next t1 →
    (resolveTwo a b t1).va = .addr c → (resolveTwo a b t1).y = (resolveTwo a b s).y →
    ∃ t2, exec (.sub a b) t1 = .next t2 ∧ load c t2 = (resolveTwo a b s).x ∧
      t2.o = (if (resolveTwo a b s).x.toNat + (resolveTwo a b s).y.toNat ≥ 65536 then 0xFFFF else 0x0000)

/-! ### Whole-machine rules -/

/-- R14: "No other instruction or side effect reads or writes a general register" (the writing half). -/
def Obligations.RegistersChangeOnlyAsDestination : Prop :=
  ∀ (i : Instr) (s t : State) (r : Reg), exec i s = .next t → destination i s ≠ some (.register r) →
    t.getReg r = s.getReg r

/-- The memory frame of every instruction (R43: the writes of point 5; R68; R119). -/
def Obligations.RamChangesOnlyAtTheStoreAddress : Prop :=
  ∀ (i : Instr) (s t : State) (w : Word), exec i s = .next t → storeAddress i s ≠ some w →
    t.readRam w = s.readRam w

/-- R21: the opcodes that define O; MOD is none of them (C7). -/
def Obligations.OverflowChangesOnlyByItsOpcodes : Prop :=
  ∀ (i : Instr) (s t : State), exec i s = .next t → definesO i = false → destination i s ≠ some .o → t.o = s.o

/-- R95, cases 1 and 3 (case 2 is the result of each opcode's own statement). -/
def Obligations.PcAdvancesByTheLengthUnlessWritten : Prop :=
  ∀ (s t : State), step s = .next t →
    (∀ a, s.skip = false → fetchInstr s = .jsr a → t.pc = readValue (resolveOne a s).1 (resolveOne a s).2) ∧
    ((s.skip = true ∨ (∀ a, fetchInstr s ≠ .jsr a) ∧ destination (fetchInstr s) s ≠ some .pc) →
      t.pc = s.pc + BitVec.ofNat 16 (fetchInstr s).length)

/-- R96; R19: what changes SP. -/
def Obligations.SpMovesOnlyByStackOperandsAndJsr : Prop :=
  ∀ (s t : State), step s = .next t →
    (∀ a, s.skip = false → fetchInstr s = .jsr a → t.sp = spAfter [a] s - 1) ∧
    ((s.skip = true ∨ (∀ a, fetchInstr s ≠ .jsr a) ∧ destination (fetchInstr s) s ≠ some .sp) →
      t.sp = spAfter (fetchInstr s).operands s)

/-- R23, over every state. `conditionFails` reads `x` and `y` after both resolutions, which is decision D5 (log 7). -/
def Obligations.SkipIsSetOnlyByAFailingConditional : Prop :=
  (∀ (s t : State), step s = .next t → (t.skip = true ↔ s.skip = false ∧ conditionFails (fetchInstr s) s)) ∧
  (∀ s : State, load .skip s = 0x0000 ∨ load .skip s = 0x0001) ∧
  (∀ (c : BitVec 6) (s : State), (resolve (decodeOperand c) s).1 ≠ .addr .skip)

/-- R89; the resolution effects that remain are R88's. -/
def Obligations.SkippedStepOnlyConsumesItsOperands : Prop :=
  ∀ s : State, s.skip = true → isReserved (fetchInstr s) = false →
    ∃ t, step s = .next t ∧ t.skip = false ∧ ReadOnlyFrame (fetchInstr s).operands s t

/-- R90, R91: also a skipped IFx does not set Skip, and a skipped JSR neither pushes nor jumps.
`conditionFails` reads `x` and `y` after both resolutions (decision D5, log 7). -/
def Obligations.FailingConditionSkipsExactlyOneInstruction : Prop :=
  ∀ s : State, s.skip = false → conditionFails (fetchInstr s) s →
    ∃ t1, step s = .next t1 ∧ t1.skip = true ∧ ReadOnlyFrame (fetchInstr s).operands s t1 ∧
      (isReserved (fetchInstr t1) = false →
        ∃ t2, step t1 = .next t2 ∧ t2.skip = false ∧ ReadOnlyFrame (fetchInstr t1).operands t1 t2 ∧
          t2.pc = s.pc + BitVec.ofNat 16 ((fetchInstr s).length + (fetchInstr t1).length))

/-- R84, points 1, 2 and 4. -/
def Obligations.StepRunsTheDecodedInstruction : Prop :=
  ∀ (i : Instr) (s : State), i.wf = true → s.readRam s.pc = encode i →
    (s.skip = false → step s = exec i s) ∧ (s.skip = true → step s = skipInstr i s)

/-- R92, R120, R121; decisions D6 and D7 (log 4). -/
def Obligations.ReservedWordFaultsEvenWhenSkipped : Prop :=
  ∀ s : State, (s.readRam s.pc).toNat % 16 = 0 → (s.readRam s.pc).toNat / 16 % 64 ≠ 1 →
    step s = .fault (.illegalInstruction (s.readRam s.pc) s.pc)

/-- R120: "No instruction other than a reserved non-basic word raises it"; R131. That a step with Skip set does not complete
on a reserved word is decision D7 (R92, log 4). -/
def Obligations.StepCompletesUnlessTheWordIsReserved : Prop :=
  ∀ s : State,
    (((s.readRam s.pc).toNat % 16 ≠ 0 ∨ (s.readRam s.pc).toNat / 16 % 64 = 1) ↔ ∃ t, step s = .next t) ∧
    ∀ e, step s ≠ .refused e

/-- R26, C4: no instruction reads or writes Cycles (its width is decision D9, log 9). -/
def Obligations.CyclesIsNeitherWrittenNorRead : Prop :=
  ∀ (s : State) (v : Word),
    (∀ t, step s = .next t → loadCycles t = loadCycles s ∧ step (storeCycles v s) = .next (storeCycles v t)) ∧
    (∀ f, step s = .fault f → step (storeCycles v s) = .fault f)

/-- R46: fetch is coherent with data writes, with no fence. `storedWord` is the result of the opcode on `x` and `y`, read after both
resolutions (decision D5, log 7), or JSR's return address. -/
def Obligations.StoredWordIsTheNextInstruction : Prop :=
  ∀ (i : Instr) (s t : State) (w : Word), s.skip = false → exec i s = .next t → storeAddress i s = some w →
    ∃ v, storedWord i s = some v ∧ t.readRam w = v ∧ (t.pc = w → step t = exec (decodeWord v) t)

/-- Property 6 of 95_test_vectors.md section 1.2, for every operand of JSR. A target equal to the stack slot is left out: the push
writes the return address over the SET PC, POP. -/
def Obligations.CallThenReturnComesBack : Prop :=
  ∀ (a : Operand) (s : State),
    let x := readValue (resolveOne a s).1 (resolveOne a s).2
    let slot := spAfter [a] s - 1
    s.skip = false → s.readRam s.pc = encode (.jsr a) → s.readRam x = encode (.set .pc .pop) → x ≠ slot →
    ∃ t1 t2, step s = .next t1 ∧ step t1 = .next t2 ∧ t2.pc = pcAfter [a] s ∧ t2.sp = spAfter [a] s ∧
      t2.readRam slot = pcAfter [a] s ∧ (∀ w, w ≠ slot → t2.readRam w = s.readRam w) ∧
      (∀ r, t2.getReg r = s.getReg r) ∧ t2.o = s.o ∧ t2.skip = false ∧ t2.cycles = s.cycles

/-- Property 5 of 95_test_vectors.md section 1.2, for every register and every literal in its `nextword` form. A pushed slot that is
the second instruction's own word is left out: the push writes the literal over the instruction. -/
def Obligations.PushThenPopMovesTheLiteral : Prop :=
  ∀ (r : Reg) (s : State), s.skip = false → s.readRam s.pc = encode (.set .push .nextLit) →
    s.readRam (s.pc + 2) = encode (.set (.reg r) .pop) → s.sp - 1 ≠ s.pc + 2 →
    ∃ t1 t2, step s = .next t1 ∧ step t1 = .next t2 ∧ t2.getReg r = s.readRam (s.pc + 1) ∧ t2.sp = s.sp ∧
      t2.pc = s.pc + 3 ∧ t2.readRam (s.sp - 1) = s.readRam (s.pc + 1) ∧
      (∀ w, w ≠ s.sp - 1 → t2.readRam w = s.readRam w) ∧
      (∀ k, k ≠ r → t2.getReg k = s.getReg k) ∧ t2.o = s.o ∧ t2.skip = false ∧ t2.cycles = s.cycles

/-! ### Reset, memory and the host (70_reset_and_hazards.md, 20_memory.md) -/

/-- R15, R22, R24 (and R18, R20, R26, R28). -/
def Obligations.ResetLeavesEveryCellZeroButSp : Prop :=
  (∀ r, State.reset.getReg r = 0x0000) ∧ State.reset.o = 0x0000 ∧ load .skip State.reset = 0x0000 ∧
  State.reset.pc = 0x0000 ∧ State.reset.sp = 0xFFFF ∧ loadCycles State.reset = 0x0000 ∧
  ∀ w, State.reset.readRam w = 0x0000

/-- The invariant of the representation (log 1) at reset. -/
def Obligations.ResetMeetsTheInvariant : Prop :=
  State.reset.Inv

/-- The invariant of the representation (log 1), over every state and step. -/
def Obligations.StepKeepsTheInvariant : Prop :=
  ∀ (s t : State), s.Inv → step s = .next t → t.Inv

/-- The invariant of the representation (log 1) under the host's operations (R137). -/
def Obligations.HostOperationsKeepTheInvariant : Prop :=
  ∀ s : State, s.Inv →
    (∀ c v, (store c v s).Inv) ∧ (∀ v, (storeCycles v s).Inv) ∧
    (∀ ws t, loadProgram ws s = .next t → t.Inv) ∧ (∀ bytes t, loadImage bytes s = .next t → t.Inv)

/-- R32 over the cells of R10; R25 for Skip (decision D8, log 8). -/
def Obligations.LoadReturnsTheLastStore : Prop :=
  ∀ (c d : Address) (v : Word) (s : State),
    load d (store c v s) =
      (if d = c then (if c = .skip then (if v = 0x0000 then 0x0000 else 0x0001) else v) else load d s) ∧
    loadCycles (store c v s) = loadCycles s

/-- R36: "returns the word last stored at that address, or 0x0000 if none was stored". -/
def Obligations.RamReturnsTheLatestWrite : Prop :=
  ∀ (writes : List (Word × Word)) (w : Word),
    Ram.read (writes.foldl (fun m p => Ram.write m p.1 p.2) State.reset.ram) w =
      match writes.reverse.find? (fun p => p.1 == w) with
      | some p => p.2
      | none => 0x0000

/-- R28, and R134's "writes no cell other than RAM". -/
def Obligations.LoadProgramFillsRamFromZero : Prop :=
  (∀ w, State.reset.readRam w = 0x0000) ∧
  ∀ ws : List Word, ws.length ≤ 65536 →
    ∃ t, loadProgram ws State.reset = .next t ∧
      (∀ (i : Nat) (h : i < ws.length), t.readRam (BitVec.ofNat 16 i) = ws[i]) ∧
      (∀ w : Word, ws.length ≤ w.toNat → t.readRam w = 0x0000) ∧
      t.regs = State.reset.regs ∧ t.pc = State.reset.pc ∧ t.sp = State.reset.sp ∧ t.o = State.reset.o ∧
      t.skip = State.reset.skip ∧ t.cycles = State.reset.cycles

/-- R39; the refusals are decision D14 (log 11). -/
def Obligations.ImagesLoadBigEndianAndBadLoadsAreRefused : Prop :=
  (∀ (pairs : List (Byte × Byte)) (s : State),
    loadImage (pairs.flatMap fun p => [p.1, p.2]) s =
      loadProgram (pairs.map fun p => BitVec.ofNat 16 (p.1.toNat * 256 + p.2.toNat)) s) ∧
  (∀ (bytes : List Byte) (s : State), bytes.length % 2 = 1 → loadImage bytes s = .refused (.oddImage bytes.length)) ∧
  (∀ (ws : List Word) (s : State), 65536 < ws.length → loadProgram ws s = .refused (.programTooLong ws.length))

/-- R18, R135: execution starts at Ram(0), with no vector. -/
def Obligations.ExecutionStartsWithTheFirstWord : Prop :=
  ∀ (w : Word) (ws : List Word), (w :: ws).length ≤ 65536 →
    ∃ t, loadProgram (w :: ws) State.reset = .next t ∧ t.pc = 0x0000 ∧ t.skip = false ∧
      step t = exec (decodeWord w) t

/-- The model's convention for placing an instruction (log 12). -/
def Obligations.PlacedTableWordIsRunNext : Prop :=
  ∀ (s : State) (nbits w : Nat) (i : Instr), decodeTableWord nbits w = some i →
    step (s.withFetchWord nbits w) = exec i (s.withFetchWord nbits w) ∧
    (s.withFetchWord nbits w).regs = s.regs ∧ (s.withFetchWord nbits w).pc = s.pc ∧
    (s.withFetchWord nbits w).sp = s.sp ∧ (s.withFetchWord nbits w).o = s.o ∧
    (s.withFetchWord nbits w).cycles = s.cycles
end

