-- ==== Sys2Proof/Laws/State.lean ====
section
/-! SUPPORT. One lemma per field per update of State, true by rfl, so that no proof unfolds a record update; and the register
file's read after write. -/

namespace Sys2Proof.Machine

/-! ### `setReg` -/

@[simp] theorem State.setReg_regs (s : State) (r : Reg) (v : Word) : (s.setReg r v).regs = s.regs.set r v := rfl
@[simp] theorem State.setReg_pc (s : State) (r : Reg) (v : Word) : (s.setReg r v).pc = s.pc := rfl
@[simp] theorem State.setReg_sp (s : State) (r : Reg) (v : Word) : (s.setReg r v).sp = s.sp := rfl
@[simp] theorem State.setReg_o (s : State) (r : Reg) (v : Word) : (s.setReg r v).o = s.o := rfl
@[simp] theorem State.setReg_skip (s : State) (r : Reg) (v : Word) : (s.setReg r v).skip = s.skip := rfl
@[simp] theorem State.setReg_cycles (s : State) (r : Reg) (v : Word) : (s.setReg r v).cycles = s.cycles := rfl
@[simp] theorem State.setReg_ram (s : State) (r : Reg) (v : Word) : (s.setReg r v).ram = s.ram := rfl
@[simp] theorem State.setReg_readRam (s : State) (r : Reg) (v : Word) (k : Word) : (s.setReg r v).readRam k = s.readRam k := rfl

/-! ### `setPc` -/

@[simp] theorem State.setPc_regs (s : State) (v : Word) : (s.setPc v).regs = s.regs := rfl
@[simp] theorem State.setPc_pc (s : State) (v : Word) : (s.setPc v).pc = v := rfl
@[simp] theorem State.setPc_sp (s : State) (v : Word) : (s.setPc v).sp = s.sp := rfl
@[simp] theorem State.setPc_o (s : State) (v : Word) : (s.setPc v).o = s.o := rfl
@[simp] theorem State.setPc_skip (s : State) (v : Word) : (s.setPc v).skip = s.skip := rfl
@[simp] theorem State.setPc_cycles (s : State) (v : Word) : (s.setPc v).cycles = s.cycles := rfl
@[simp] theorem State.setPc_ram (s : State) (v : Word) : (s.setPc v).ram = s.ram := rfl
@[simp] theorem State.setPc_getReg (s : State) (v : Word) (k : Reg) : (s.setPc v).getReg k = s.getReg k := rfl
@[simp] theorem State.setPc_readRam (s : State) (v : Word) (k : Word) : (s.setPc v).readRam k = s.readRam k := rfl

/-! ### `setSp` -/

@[simp] theorem State.setSp_regs (s : State) (v : Word) : (s.setSp v).regs = s.regs := rfl
@[simp] theorem State.setSp_pc (s : State) (v : Word) : (s.setSp v).pc = s.pc := rfl
@[simp] theorem State.setSp_sp (s : State) (v : Word) : (s.setSp v).sp = v := rfl
@[simp] theorem State.setSp_o (s : State) (v : Word) : (s.setSp v).o = s.o := rfl
@[simp] theorem State.setSp_skip (s : State) (v : Word) : (s.setSp v).skip = s.skip := rfl
@[simp] theorem State.setSp_cycles (s : State) (v : Word) : (s.setSp v).cycles = s.cycles := rfl
@[simp] theorem State.setSp_ram (s : State) (v : Word) : (s.setSp v).ram = s.ram := rfl
@[simp] theorem State.setSp_getReg (s : State) (v : Word) (k : Reg) : (s.setSp v).getReg k = s.getReg k := rfl
@[simp] theorem State.setSp_readRam (s : State) (v : Word) (k : Word) : (s.setSp v).readRam k = s.readRam k := rfl

/-! ### `setO` -/

@[simp] theorem State.setO_regs (s : State) (v : Word) : (s.setO v).regs = s.regs := rfl
@[simp] theorem State.setO_pc (s : State) (v : Word) : (s.setO v).pc = s.pc := rfl
@[simp] theorem State.setO_sp (s : State) (v : Word) : (s.setO v).sp = s.sp := rfl
@[simp] theorem State.setO_o (s : State) (v : Word) : (s.setO v).o = v := rfl
@[simp] theorem State.setO_skip (s : State) (v : Word) : (s.setO v).skip = s.skip := rfl
@[simp] theorem State.setO_cycles (s : State) (v : Word) : (s.setO v).cycles = s.cycles := rfl
@[simp] theorem State.setO_ram (s : State) (v : Word) : (s.setO v).ram = s.ram := rfl
@[simp] theorem State.setO_getReg (s : State) (v : Word) (k : Reg) : (s.setO v).getReg k = s.getReg k := rfl
@[simp] theorem State.setO_readRam (s : State) (v : Word) (k : Word) : (s.setO v).readRam k = s.readRam k := rfl

/-! ### `setSkip` -/

@[simp] theorem State.setSkip_regs (s : State) (v : Bool) : (s.setSkip v).regs = s.regs := rfl
@[simp] theorem State.setSkip_pc (s : State) (v : Bool) : (s.setSkip v).pc = s.pc := rfl
@[simp] theorem State.setSkip_sp (s : State) (v : Bool) : (s.setSkip v).sp = s.sp := rfl
@[simp] theorem State.setSkip_o (s : State) (v : Bool) : (s.setSkip v).o = s.o := rfl
@[simp] theorem State.setSkip_skip (s : State) (v : Bool) : (s.setSkip v).skip = v := rfl
@[simp] theorem State.setSkip_cycles (s : State) (v : Bool) : (s.setSkip v).cycles = s.cycles := rfl
@[simp] theorem State.setSkip_ram (s : State) (v : Bool) : (s.setSkip v).ram = s.ram := rfl
@[simp] theorem State.setSkip_getReg (s : State) (v : Bool) (k : Reg) : (s.setSkip v).getReg k = s.getReg k := rfl
@[simp] theorem State.setSkip_readRam (s : State) (v : Bool) (k : Word) : (s.setSkip v).readRam k = s.readRam k := rfl

/-! ### `setCycles` -/

@[simp] theorem State.setCycles_regs (s : State) (v : Word) : (s.setCycles v).regs = s.regs := rfl
@[simp] theorem State.setCycles_pc (s : State) (v : Word) : (s.setCycles v).pc = s.pc := rfl
@[simp] theorem State.setCycles_sp (s : State) (v : Word) : (s.setCycles v).sp = s.sp := rfl
@[simp] theorem State.setCycles_o (s : State) (v : Word) : (s.setCycles v).o = s.o := rfl
@[simp] theorem State.setCycles_skip (s : State) (v : Word) : (s.setCycles v).skip = s.skip := rfl
@[simp] theorem State.setCycles_cycles (s : State) (v : Word) : (s.setCycles v).cycles = v := rfl
@[simp] theorem State.setCycles_ram (s : State) (v : Word) : (s.setCycles v).ram = s.ram := rfl
@[simp] theorem State.setCycles_getReg (s : State) (v : Word) (k : Reg) : (s.setCycles v).getReg k = s.getReg k := rfl
@[simp] theorem State.setCycles_readRam (s : State) (v : Word) (k : Word) : (s.setCycles v).readRam k = s.readRam k := rfl

/-! ### `writeRam` -/

@[simp] theorem State.writeRam_regs (s : State) (w : Word) (v : Word) : (s.writeRam w v).regs = s.regs := rfl
@[simp] theorem State.writeRam_pc (s : State) (w : Word) (v : Word) : (s.writeRam w v).pc = s.pc := rfl
@[simp] theorem State.writeRam_sp (s : State) (w : Word) (v : Word) : (s.writeRam w v).sp = s.sp := rfl
@[simp] theorem State.writeRam_o (s : State) (w : Word) (v : Word) : (s.writeRam w v).o = s.o := rfl
@[simp] theorem State.writeRam_skip (s : State) (w : Word) (v : Word) : (s.writeRam w v).skip = s.skip := rfl
@[simp] theorem State.writeRam_cycles (s : State) (w : Word) (v : Word) : (s.writeRam w v).cycles = s.cycles := rfl
@[simp] theorem State.writeRam_ram (s : State) (w : Word) (v : Word) : (s.writeRam w v).ram = s.ram.write w v := rfl
@[simp] theorem State.writeRam_getReg (s : State) (w : Word) (v : Word) (k : Reg) : (s.writeRam w v).getReg k = s.getReg k := rfl

/-! ### The register file -/

@[simp] theorem RegFile.get_set_same (f : RegFile) (r : Reg) (v : Word) : (f.set r v).get r = v := by
  cases r <;> rfl

theorem RegFile.get_set_other (f : RegFile) {r k : Reg} (v : Word) (h : k ≠ r) : (f.set r v).get k = f.get k := by
  cases r <;> cases k <;> first | rfl | exact absurd rfl h

theorem RegFile.ext_get {f g : RegFile} (h : ∀ r, f.get r = g.get r) : f = g := by
  obtain ⟨a, b, c, x, y, z, i, j⟩ := f
  obtain ⟨a', b', c', x', y', z', i', j'⟩ := g
  simp only [RegFile.mk.injEq]
  exact ⟨h .a, h .b, h .c, h .x, h .y, h .z, h .i, h .j⟩

@[simp] theorem State.setReg_getReg_same (s : State) (r : Reg) (v : Word) : (s.setReg r v).getReg r = v :=
  RegFile.get_set_same _ _ _

theorem State.setReg_getReg_other (s : State) {r k : Reg} (v : Word) (h : k ≠ r) :
    (s.setReg r v).getReg k = s.getReg k :=
  RegFile.get_set_other _ v h

theorem State.reset_getReg (r : Reg) : State.reset.getReg r = 0x0000 := by
  cases r <;> rfl

end Sys2Proof.Machine
end

