-- ==== Sys2Proof/Laws/Ram.lean ====
section
/-! SUPPORT. The laws of RAM: read after write, at the written address and at every other one; the canonical form is kept by
every operation and makes equal memories equal lists. -/

namespace Sys2Proof.Machine

/-! ### Reads -/

theorem Ram.get_erase (m : Ram) (w k : Nat) : (m.erase w).get k = if k = w then Config.ramFill else m.get k := by
  induction m with
  | nil => simp [Ram.erase, Ram.get]
  | cons e m ih =>
    obtain ⟨a, u⟩ := e
    by_cases h : a = w <;> by_cases h' : a = k <;> simp_all [Ram.erase, Ram.get]

theorem Ram.get_insert_same {m : Ram} {w : Nat} (v : Word) (h : w ∉ m.map Prod.fst) : (m.insert w v).get w = v := by
  induction m with
  | nil => simp [Ram.insert, Ram.get]
  | cons e m ih =>
    obtain ⟨a, u⟩ := e
    simp only [List.map_cons, List.mem_cons, not_or] at h
    by_cases hlt : w < a
    · simp [Ram.insert, Ram.get, hlt]
    · simp [Ram.insert, Ram.get, hlt, Ne.symm h.1, ih h.2]

theorem Ram.get_insert_other (m : Ram) {w k : Nat} (v : Word) (h : k ≠ w) : (m.insert w v).get k = m.get k := by
  induction m with
  | nil => simp [Ram.insert, Ram.get, Ne.symm h]
  | cons e m ih =>
    obtain ⟨a, u⟩ := e
    by_cases hlt : w < a
    · simp [Ram.insert, Ram.get, hlt, Ne.symm h]
    · simp [Ram.insert, Ram.get, hlt, ih]

theorem Ram.not_mem_erase (m : Ram) (w : Nat) : w ∉ (m.erase w).map Prod.fst := by
  induction m with
  | nil => simp [Ram.erase]
  | cons e m ih =>
    obtain ⟨a, u⟩ := e
    by_cases h : a = w
    · simpa [Ram.erase, h] using ih
    · simp only [Ram.erase, if_neg h, List.map_cons, List.mem_cons, not_or]
      exact ⟨Ne.symm h, ih⟩

/-- The whole of what a write can do to a read. -/
theorem Ram.read_write (m : Ram) (w v k : Word) : (m.write w v).read k = if k = w then v else m.read k := by
  have hn : k.toNat = w.toNat ↔ k = w := BitVec.toNat_inj
  unfold Ram.write Ram.read
  split
  · simp_all [Ram.get_erase]
  · by_cases h : k = w
    · subst h
      simpa using Ram.get_insert_same v (Ram.not_mem_erase m k.toNat)
    · have hk : k.toNat ≠ w.toNat := fun e => h (hn.mp e)
      simp [h, Ram.get_insert_other _ v hk, Ram.get_erase, hk]

@[simp] theorem Ram.read_write_same (m : Ram) (w v : Word) : (m.write w v).read w = v := by
  simp [Ram.read_write]

theorem Ram.read_write_other (m : Ram) {w k : Word} (v : Word) (h : k ≠ w) : (m.write w v).read k = m.read k := by
  simp [Ram.read_write, h]

@[simp] theorem Ram.read_nil (w : Word) : Ram.read [] w = 0x0000 := rfl

theorem State.readRam_writeRam (s : State) (w v k : Word) :
    (s.writeRam w v).readRam k = if k = w then v else s.readRam k :=
  Ram.read_write s.ram w v k

@[simp] theorem State.readRam_writeRam_same (s : State) (w v : Word) : (s.writeRam w v).readRam w = v :=
  Ram.read_write_same s.ram w v

theorem State.readRam_writeRam_other (s : State) {w k : Word} (v : Word) (h : k ≠ w) :
    (s.writeRam w v).readRam k = s.readRam k :=
  Ram.read_write_other s.ram v h

/-! ### A list of words written from an address up -/

theorem word_add_succ (w : Word) (k : Nat) : w + BitVec.ofNat 16 (k + 1) = w + 1 + BitVec.ofNat 16 k := by
  rw [BitVec.ofNat_add, BitVec.add_comm (BitVec.ofNat 16 k), ← BitVec.add_assoc]
  rfl

theorem word_add_ne {w : Word} {k : Nat} (h0 : 0 < k) (h : k < 65536) : w + BitVec.ofNat 16 k ≠ w := by
  intro e
  have := congrArg BitVec.toNat e
  simp only [BitVec.toNat_add, BitVec.toNat_ofNat] at this
  have := w.isLt
  omega

/-- Outside the written words memory reads as before. -/
theorem Ram.read_writeList_other (ws : List Word) : ∀ (m : Ram) (w : Word) {k : Nat}, ws.length ≤ k → k < 65536 →
    (m.writeList w ws).read (w + BitVec.ofNat 16 k) = m.read (w + BitVec.ofNat 16 k) := by
  induction ws with
  | nil => intro m w k _ _; rfl
  | cons v vs ih =>
    intro m w k hk hlt
    obtain ⟨j, rfl⟩ : ∃ j, k = j + 1 := ⟨k - 1, by simp only [List.length_cons] at hk; omega⟩
    have hj : vs.length ≤ j := by simpa using hk
    rw [Ram.writeList, word_add_succ, ih _ _ hj (by omega), ← word_add_succ,
      Ram.read_write_other _ _ (word_add_ne (Nat.succ_pos j) hlt)]

/-- The written words read back, as long as they do not wrap onto themselves. -/
theorem Ram.read_writeList (ws : List Word) : ∀ (m : Ram) (w : Word), ws.length ≤ 65536 →
    ∀ (k : Nat) (h : k < ws.length), (m.writeList w ws).read (w + BitVec.ofNat 16 k) = ws[k] := by
  induction ws with
  | nil => intro m w _ k h; exact absurd h (Nat.not_lt_zero k)
  | cons v vs ih =>
    intro m w hl k hk
    simp only [List.length_cons] at hl
    rw [Ram.writeList]
    cases k with
    | zero =>
      have hlast := Ram.read_writeList_other vs (m.write w v) (w + 1) (k := 65535) (by omega) (by omega)
      have hw : w + BitVec.ofNat 16 (65535 + 1) = w := by simp
      rw [← word_add_succ, hw, Ram.read_write_same] at hlast
      simpa using hlast
    | succ j =>
      rw [word_add_succ]
      exact ih _ _ (by omega) j (by simpa using hk)

/-! ### The canonical form -/

theorem Ram.wfFrom_cons (lo k : Nat) (v : Word) (m : Ram) :
    Ram.wfFrom lo ((k, v) :: m) = true ↔
      lo ≤ k ∧ k < Config.ramWords ∧ v ≠ Config.ramFill ∧ Ram.wfFrom (k + 1) m = true := by
  simp [Ram.wfFrom, and_assoc]

theorem Ram.wfFrom_mono {lo lo' : Nat} {m : Ram} (h : Ram.wfFrom lo m = true) (hle : lo' ≤ lo) :
    Ram.wfFrom lo' m = true := by
  cases m with
  | nil => rfl
  | cons e m =>
    obtain ⟨k, v⟩ := e
    rw [Ram.wfFrom_cons] at h ⊢
    exact ⟨by omega, h.2⟩

theorem Ram.wfFrom_erase {m : Ram} (w : Nat) : ∀ {lo}, Ram.wfFrom lo m = true → Ram.wfFrom lo (m.erase w) = true := by
  induction m with
  | nil => intro lo h; exact h
  | cons e m ih =>
    obtain ⟨k, v⟩ := e
    intro lo h
    rw [Ram.wfFrom_cons] at h
    by_cases hk : k = w
    · simpa [Ram.erase, hk] using Ram.wfFrom_mono (ih h.2.2.2) (by omega : lo ≤ k + 1)
    · simp only [Ram.erase, if_neg hk]
      exact (Ram.wfFrom_cons ..).mpr ⟨h.1, h.2.1, h.2.2.1, ih h.2.2.2⟩

theorem Ram.wfFrom_insert {m : Ram} {w : Nat} {v : Word} (hw : w < Config.ramWords) (hv : v ≠ Config.ramFill) :
    ∀ {lo}, lo ≤ w → w ∉ m.map Prod.fst → Ram.wfFrom lo m = true → Ram.wfFrom lo (m.insert w v) = true := by
  induction m with
  | nil => intro lo hlo _ _; simp [Ram.insert, hlo, hw, hv, Ram.wfFrom]
  | cons e m ih =>
    obtain ⟨k, u⟩ := e
    intro lo hlo hin h
    simp only [List.map_cons, List.mem_cons, not_or] at hin
    rw [Ram.wfFrom_cons] at h
    by_cases hk : w < k
    · simp only [Ram.insert, if_pos hk]
      exact (Ram.wfFrom_cons ..).mpr ⟨hlo, hw, hv, (Ram.wfFrom_cons ..).mpr ⟨hk, h.2⟩⟩
    · simp only [Ram.insert, if_neg hk]
      exact (Ram.wfFrom_cons ..).mpr ⟨h.1, h.2.1, h.2.2.1, ih (by omega) hin.2 h.2.2.2⟩

/-- A write keeps the canonical form. -/
theorem Ram.wf_write {m : Ram} (w v : Word) (h : m.wf = true) : (m.write w v).wf = true := by
  unfold Ram.write
  split
  · exact Ram.wfFrom_erase _ h
  · exact Ram.wfFrom_insert (by have := w.isLt; simpa [Config.ramWords] using this) ‹_› (Nat.zero_le _)
      (Ram.not_mem_erase m _) (Ram.wfFrom_erase _ h)

theorem Ram.wf_writeList (ws : List Word) : ∀ {m : Ram} (w : Word), m.wf = true → (m.writeList w ws).wf = true := by
  induction ws with
  | nil => intro m w h; exact h
  | cons v vs ih => intro m w h; exact ih _ (Ram.wf_write w v h)

theorem Ram.get_of_lt {m : Ram} {lo w : Nat} (h : Ram.wfFrom lo m = true) (hw : w < lo) : m.get w = Config.ramFill := by
  induction m generalizing lo with
  | nil => rfl
  | cons e m ih =>
    obtain ⟨k, v⟩ := e
    rw [Ram.wfFrom_cons] at h
    simp only [Ram.get, if_neg (by omega : k ≠ w)]
    exact ih h.2.2.2 (by omega)

theorem Ram.ext_get {m n : Ram} : ∀ {lo}, Ram.wfFrom lo m = true → Ram.wfFrom lo n = true →
    (∀ w, w < Config.ramWords → m.get w = n.get w) → m = n := by
  induction m generalizing n with
  | nil =>
    intro lo _ hn h
    cases n with
    | nil => rfl
    | cons e n =>
      obtain ⟨k, v⟩ := e
      rw [Ram.wfFrom_cons] at hn
      have := h k hn.2.1
      simp [Ram.get] at this
      exact absurd this.symm hn.2.2.1
  | cons e m ih =>
    obtain ⟨k, v⟩ := e
    intro lo hm hn h
    have hm' := (Ram.wfFrom_cons ..).mp hm
    cases n with
    | nil =>
      have := h k hm'.2.1
      simp [Ram.get] at this
      exact absurd this hm'.2.2.1
    | cons e' n =>
      obtain ⟨k', v'⟩ := e'
      have hn' := (Ram.wfFrom_cons ..).mp hn
      have hkk : k = k' := by
        rcases Nat.lt_trichotomy k k' with hlt | heq | hgt
        · have := h k hm'.2.1
          simp only [Ram.get, if_true, if_neg (by omega : k' ≠ k)] at this
          rw [Ram.get_of_lt hn'.2.2.2 (by omega)] at this
          exact absurd this hm'.2.2.1
        · exact heq
        · have := h k' hn'.2.1
          simp only [Ram.get, if_true, if_neg (by omega : k ≠ k')] at this
          rw [Ram.get_of_lt hm'.2.2.2 (by omega)] at this
          exact absurd this.symm hn'.2.2.1
      subst hkk
      have hv : v = v' := by simpa [Ram.get] using h k hm'.2.1
      subst hv
      have : m = n := ih hm'.2.2.2 hn'.2.2.2 fun w hw => by
        by_cases hwk : k = w
        · subst hwk
          rw [Ram.get_of_lt hm'.2.2.2 (by omega), Ram.get_of_lt hn'.2.2.2 (by omega)]
        · simpa [Ram.get, hwk] using h w hw
      rw [this]

/-- In canonical form, memories that read alike are the same list. -/
theorem Ram.ext_read {m n : Ram} (hm : m.wf = true) (hn : n.wf = true) (h : ∀ w, m.read w = n.read w) : m = n :=
  Ram.ext_get hm hn fun w hw => by
    have := h (BitVec.ofNat 16 w)
    simpa [Ram.read, Nat.mod_eq_of_lt (show w < 65536 from hw)] using this

theorem State.reset_ram_wf : State.reset.ram.wf = true := rfl

end Sys2Proof.Machine
end

