-- ==== Sys2Proof/Laws/Operands.lean ====
section
/-! SUPPORT. Everything operand resolution can do (spec/40_operand_resolution.md R68, R83), and everything a read or a write
through a Value can do (R72). -/

namespace Sys2Proof.Machine

@[simp] theorem fetchWord_fst (s : State) : (fetchWord s).1 = s.readRam s.pc := rfl
@[simp] theorem fetchWord_snd (s : State) : (fetchWord s).2 = s.setPc (s.pc + 1) := rfl

/-- Resolution changes PC by the extra words and SP by the PUSH or POP, and nothing else (R83). -/
theorem resolve_snd (c : Operand) (s : State) :
    (resolve c s).2 = (s.setPc (s.pc + BitVec.ofNat 16 c.extraWords)).setSp (s.sp + spDelta c) := by
  cases c <;> simp [resolve, Operand.extraWords, spDelta, fetchWord, State.setPc, State.setSp, BitVec.sub_eq_add_neg]

/-- The resolver never names the Skip latch (R67). -/
theorem resolve_fst_ne_skip (c : Operand) (s : State) : (resolve c s).1 ≠ .addr .skip := by
  cases c <;> simp [resolve]

theorem resolveTwo_va_ne_skip (a b : Operand) (s : State) : (resolveTwo a b s).va ≠ .addr .skip :=
  resolve_fst_ne_skip _ _

/-- The state in which a basic instruction executes. -/
theorem resolveTwo_st (a b : Operand) (s : State) :
    (resolveTwo a b s).st =
      (s.setPc (s.pc + 1 + BitVec.ofNat 16 (a.extraWords + b.extraWords))).setSp (s.sp + (spDelta a + spDelta b)) := by
  simp [resolveTwo, resolve_snd, State.setPc, State.setSp, BitVec.add_assoc, BitVec.ofNat_add]

/-- The state in which a JSR executes. -/
theorem resolveOne_snd (a : Operand) (s : State) :
    (resolveOne a s).2 = (s.setPc (s.pc + 1 + BitVec.ofNat 16 a.extraWords)).setSp (s.sp + spDelta a) := by
  simp [resolveOne, resolve_snd, State.setPc, State.setSp]

/-- The side effects of a list of operands, in order (41_step_control.md R88). -/
theorem resolveEffects_eq (cs : List Operand) (s : State) :
    resolveEffects cs s =
      (s.setPc (s.pc + BitVec.ofNat 16 (cs.map Operand.extraWords).sum)).setSp (s.sp + (cs.map spDelta).sum) := by
  induction cs generalizing s with
  | nil => simp [resolveEffects, State.setPc, State.setSp]
  | cons c cs ih =>
    simp [resolveEffects, ih, resolve_snd, State.setPc, State.setSp, BitVec.add_assoc, BitVec.ofNat_add]

/-! ### A cell -/

@[simp] theorem skipWord_bne_zero (v : Word) : skipWord (v != 0#16) = if v = 0#16 then 0#16 else 1#16 := by
  by_cases h : v = 0#16 <;> simp [skipWord, h]

/-- A load after a store to the same cell; Skip keeps only whether the word was nonzero (10_state.md R25). -/
theorem load_store_same (c : Address) (v : Word) (s : State) :
    load c (store c v s) = if c = .skip ∧ v ≠ 0x0000 then 0x0001 else v := by
  cases c <;> simp [load, store]
  by_cases h : v = 0#16 <;> simp [h]

/-- A store leaves every other cell alone. -/
theorem load_store_other {c d : Address} (v : Word) (s : State) (h : d ≠ c) : load d (store c v s) = load d s := by
  cases c <;> cases d <;>
    simp_all [load, store, State.readRam_writeRam_other, State.setReg_getReg_other]

/-! ### A write through a Value, field by field -/

theorem writeValue_getReg (v : Value) (n : Word) (s : State) (r : Reg) :
    (writeValue v n s).getReg r = if v = .addr (.register r) then n else s.getReg r := by
  match v with
  | .lit _ => simp [writeValue]
  | .addr (.register k) =>
    by_cases h : k = r
    · simp [writeValue, store, h]
    · simp [writeValue, store, h, State.setReg_getReg_other s n (Ne.symm h)]
  | .addr .pc | .addr .sp | .addr .o | .addr .skip | .addr (.ram _) => simp [writeValue, store]

theorem writeValue_readRam (v : Value) (n : Word) (s : State) (w : Word) :
    (writeValue v n s).readRam w = if v = .addr (.ram w) then n else s.readRam w := by
  match v with
  | .lit _ => simp [writeValue]
  | .addr (.ram k) =>
    by_cases h : k = w
    · simp [writeValue, store, h]
    · simp [writeValue, store, h, State.readRam_writeRam_other s n (Ne.symm h)]
  | .addr .pc | .addr .sp | .addr .o | .addr .skip | .addr (.register _) => simp [writeValue, store]

theorem writeValue_pc (v : Value) (n : Word) (s : State) :
    (writeValue v n s).pc = if v = .addr .pc then n else s.pc := by
  match v with
  | .lit _ | .addr .pc | .addr .sp | .addr .o | .addr .skip | .addr (.register _) | .addr (.ram _) =>
    simp [writeValue, store]

theorem writeValue_sp (v : Value) (n : Word) (s : State) :
    (writeValue v n s).sp = if v = .addr .sp then n else s.sp := by
  match v with
  | .lit _ | .addr .pc | .addr .sp | .addr .o | .addr .skip | .addr (.register _) | .addr (.ram _) =>
    simp [writeValue, store]

theorem writeValue_o (v : Value) (n : Word) (s : State) :
    (writeValue v n s).o = if v = .addr .o then n else s.o := by
  match v with
  | .lit _ | .addr .pc | .addr .sp | .addr .o | .addr .skip | .addr (.register _) | .addr (.ram _) =>
    simp [writeValue, store]

theorem writeValue_skip {v : Value} (n : Word) (s : State) (h : v ≠ .addr .skip) : (writeValue v n s).skip = s.skip := by
  match v with
  | .addr .skip => exact absurd rfl h
  | .lit _ | .addr .pc | .addr .sp | .addr .o | .addr (.register _) | .addr (.ram _) => simp [writeValue, store]

theorem writeValue_cycles (v : Value) (n : Word) (s : State) : (writeValue v n s).cycles = s.cycles := by
  match v with
  | .lit _ | .addr .pc | .addr .sp | .addr .o | .addr .skip | .addr (.register _) | .addr (.ram _) =>
    simp [writeValue, store]

theorem writeValue_ram_wf (v : Value) (n : Word) {s : State} (h : s.ram.wf = true) : (writeValue v n s).ram.wf = true := by
  match v with
  | .addr (.ram w) => exact Ram.wf_write w n h
  | .lit _ | .addr .pc | .addr .sp | .addr .o | .addr .skip | .addr (.register _) => exact h

end Sys2Proof.Machine
end

