-- ==== Sys2Proof/Laws/Alu.lean ====
section
/-! SUPPORT. Everything the write-back of a basic instruction can do, field by field (spec/41_step_control.md R86), and
everything a call can do (44_nonbasic.md R119). -/

namespace Sys2Proof.Machine

theorem requestSkip_getReg (sk : Bool) (s : State) (r : Reg) : (requestSkip sk s).getReg r = s.getReg r := by
  cases sk <;> rfl

theorem requestSkip_readRam (sk : Bool) (s : State) (w : Word) : (requestSkip sk s).readRam w = s.readRam w := by
  cases sk <;> rfl

theorem writeBack_getReg (va : Value) (out : AluOut) (s : State) (r : Reg) :
    (writeBack va out s).getReg r =
      match out.result with
      | some n => if va = .addr (.register r) then n else s.getReg r
      | none => s.getReg r := by
  obtain ⟨res, ov, sk⟩ := out
  cases res <;> cases ov <;>
    simp [writeBack, requestSkip_getReg, writeOverflow, writeResult, writeValue_getReg]

theorem writeBack_readRam (va : Value) (out : AluOut) (s : State) (w : Word) :
    (writeBack va out s).readRam w =
      match out.result with
      | some n => if va = .addr (.ram w) then n else s.readRam w
      | none => s.readRam w := by
  obtain ⟨res, ov, sk⟩ := out
  cases res <;> cases ov <;>
    simp [writeBack, requestSkip_readRam, writeOverflow, writeResult, writeValue_readRam]

theorem writeBack_pc (va : Value) (out : AluOut) (s : State) :
    (writeBack va out s).pc =
      match out.result with
      | some n => if va = .addr .pc then n else s.pc
      | none => s.pc := by
  obtain ⟨res, ov, sk⟩ := out
  cases res <;> cases ov <;> cases sk <;>
    simp [writeBack, requestSkip, writeOverflow, writeResult, writeValue_pc]

theorem writeBack_sp (va : Value) (out : AluOut) (s : State) :
    (writeBack va out s).sp =
      match out.result with
      | some n => if va = .addr .sp then n else s.sp
      | none => s.sp := by
  obtain ⟨res, ov, sk⟩ := out
  cases res <;> cases ov <;> cases sk <;>
    simp [writeBack, requestSkip, writeOverflow, writeResult, writeValue_sp]

/-- O is written last (R94): the overflow word where the opcode defines one, else the result where `a` is O. -/
theorem writeBack_o (va : Value) (out : AluOut) (s : State) :
    (writeBack va out s).o =
      match out.overflow, out.result with
      | some v, _ => v
      | none, some n => if va = .addr .o then n else s.o
      | none, none => s.o := by
  obtain ⟨res, ov, sk⟩ := out
  cases res <;> cases ov <;> cases sk <;>
    simp [writeBack, requestSkip, writeOverflow, writeResult, writeValue_o]

theorem writeBack_skip {va : Value} (out : AluOut) (s : State) (h : va ≠ .addr .skip) :
    (writeBack va out s).skip = (out.skip || s.skip) := by
  obtain ⟨res, ov, sk⟩ := out
  cases res <;> cases ov <;> cases sk <;>
    simp [writeBack, requestSkip, writeOverflow, writeResult, writeValue_skip _ _ h]

theorem writeBack_cycles (va : Value) (out : AluOut) (s : State) : (writeBack va out s).cycles = s.cycles := by
  obtain ⟨res, ov, sk⟩ := out
  cases res <;> cases ov <;> cases sk <;>
    simp [writeBack, requestSkip, writeOverflow, writeResult, writeValue_cycles]

theorem writeBack_ram_wf (va : Value) (out : AluOut) {s : State} (h : s.ram.wf = true) :
    (writeBack va out s).ram.wf = true := by
  obtain ⟨res, ov, sk⟩ := out
  cases res <;> cases ov <;> cases sk <;>
    simpa [writeBack, requestSkip, writeOverflow, writeResult] using by first | exact h | exact writeValue_ram_wf va _ h

/-! ### A call -/

@[simp] theorem callTo_pc (va : Value) (s : State) : (callTo va s).pc = readValue va s := rfl
@[simp] theorem callTo_sp (va : Value) (s : State) : (callTo va s).sp = s.sp - 1 := rfl
@[simp] theorem callTo_o (va : Value) (s : State) : (callTo va s).o = s.o := rfl
@[simp] theorem callTo_skip (va : Value) (s : State) : (callTo va s).skip = s.skip := rfl
@[simp] theorem callTo_cycles (va : Value) (s : State) : (callTo va s).cycles = s.cycles := rfl
@[simp] theorem callTo_getReg (va : Value) (s : State) (r : Reg) : (callTo va s).getReg r = s.getReg r := rfl

/-- The one word a call stores is the return address, at the new SP. -/
theorem callTo_readRam (va : Value) (s : State) (w : Word) :
    (callTo va s).readRam w = if w = s.sp - 1 then s.pc else s.readRam w :=
  State.readRam_writeRam _ _ _ _

theorem callTo_ram_wf (va : Value) {s : State} (h : s.ram.wf = true) : (callTo va s).ram.wf = true :=
  Ram.wf_write _ _ h

end Sys2Proof.Machine
end

