-- ==== Sys2Proof/Laws/Decode.lean ====
section
/-! SUPPORT. The fields of an encoded word and of a decoded one (spec/30_encoding.md R48, R49, R50, R59): what every claim
about encoding rests on. -/

namespace Sys2Proof

/-! ### Operand codes -/

@[simp] theorem decodeOperand_encodeOperand (c : Operand) : decodeOperand (encodeOperand c) = c := by
  cases c with
  | reg r | regInd r | nextRegInd r => cases r <;> rfl
  | lit n => revert n; decide
  | pop | peek | push | sp | pc | o | nextInd | nextLit => rfl

@[simp] theorem encodeOperand_decodeOperand (c : BitVec 6) : encodeOperand (decodeOperand c) = c := by
  revert c; decide

/-! ### Fields -/

/-- `iw mod 16` (R48). -/
theorem lowField_toNat (w : Word) : (lowField w).toNat = w.toNat % 16 := by
  simp [lowField, BitVec.extractLsb'_toNat]

/-- `(iw div 16) mod 64` (R48). -/
theorem midField_toNat (w : Word) : (midField w).toNat = w.toNat / 16 % 64 := by
  simp [midField, BitVec.extractLsb'_toNat, Nat.shiftRight_eq_div_pow]

/-- `iw div 1024` (R48). -/
theorem topField_toNat (w : Word) : (topField w).toNat = w.toNat / 1024 := by
  have := w.isLt
  simp [topField, BitVec.extractLsb'_toNat, Nat.shiftRight_eq_div_pow]
  omega

/-- The number the three fields make: `t*1024 + m*16 + l` (R49, R50). -/
theorem toNat_fields (t m : BitVec 6) (l : BitVec 4) :
    BitVec.toNat (w := 16) (t ++ m ++ l) = t.toNat * 1024 + m.toNat * 16 + l.toNat := by
  have hm := m.isLt
  have hl := l.isLt
  rw [show BitVec.toNat (w := 16) (t ++ m ++ l) = ((t.toNat <<< 6 ||| m.toNat) <<< 4 ||| l.toNat) by
    rw [← BitVec.toNat_append, ← BitVec.toNat_append],
    ← Nat.shiftLeft_add_eq_or_of_lt hm, ← Nat.shiftLeft_add_eq_or_of_lt hl]
  simp only [Nat.shiftLeft_eq]
  omega

/-- A word is its three fields. -/
theorem fields_append (w : Word) : topField w ++ midField w ++ lowField w = w := by
  apply BitVec.eq_of_toNat_eq
  refine (toNat_fields (topField w) (midField w) (lowField w)).trans ?_
  rw [topField_toNat, midField_toNat, lowField_toNat]
  omega

theorem lowField_append (t m : BitVec 6) (l : BitVec 4) : lowField (t ++ m ++ l) = l := by
  have := l.isLt
  apply BitVec.eq_of_toNat_eq
  rw [lowField_toNat, toNat_fields]
  omega

theorem midField_append (t m : BitVec 6) (l : BitVec 4) : midField (t ++ m ++ l) = m := by
  have := l.isLt
  have := m.isLt
  apply BitVec.eq_of_toNat_eq
  rw [midField_toNat, toNat_fields]
  omega

theorem topField_append (t m : BitVec 6) (l : BitVec 4) : topField (t ++ m ++ l) = t := by
  have := l.isLt
  have := m.isLt
  apply BitVec.eq_of_toNat_eq
  rw [topField_toNat, toNat_fields]
  omega

@[simp] theorem lowField_formatB (op : BitVec 4) (a b : Operand) : lowField (formatB op a b) = op := lowField_append ..
@[simp] theorem midField_formatB (op : BitVec 4) (a b : Operand) : midField (formatB op a b) = encodeOperand a :=
  midField_append ..
@[simp] theorem topField_formatB (op : BitVec 4) (a b : Operand) : topField (formatB op a b) = encodeOperand b :=
  topField_append ..
@[simp] theorem lowField_formatN (nbop a : BitVec 6) : lowField (formatN nbop a) = 0 := lowField_append ..
@[simp] theorem midField_formatN (nbop a : BitVec 6) : midField (formatN nbop a) = nbop := midField_append ..
@[simp] theorem topField_formatN (nbop a : BitVec 6) : topField (formatN nbop a) = a := topField_append ..

/-- `iw = b*1024 + a*16 + op` (R49). -/
theorem formatB_toNat (op : BitVec 4) (a b : Operand) :
    (formatB op a b).toNat = (encodeOperand b).toNat * 1024 + (encodeOperand a).toNat * 16 + op.toNat :=
  toNat_fields (encodeOperand b) (encodeOperand a) op

/-- `iw = a*1024 + nbop*16` (R50). -/
theorem formatN_toNat (nbop a : BitVec 6) : (formatN nbop a).toNat = a.toNat * 1024 + nbop.toNat * 16 := by
  refine (toNat_fields a nbop 0x0).trans ?_
  simp

/-! ### Decoding by the low nibble (R53) -/

theorem lowField_eq {w : Word} {n : Nat} (h : (lowField w).toNat = n) : lowField w = BitVec.ofNat 4 n := by
  apply BitVec.eq_of_toNat_eq
  have := (lowField w).isLt
  simp only [h, BitVec.toNat_ofNat] at this ⊢
  omega

/-- A word is the format-B word of its own fields. -/
theorem formatB_fields {w : Word} {op : BitVec 4} (h : lowField w = op) :
    formatB op (decodeOperand (midField w)) (decodeOperand (topField w)) = w := by
  subst h
  simpa only [formatB, encodeOperand_decodeOperand] using fields_append w

/-- A word with a zero low nibble is the format-N word of its own fields. -/
theorem formatN_fields {w : Word} (h : lowField w = 0) : formatN (midField w) (topField w) = w := by
  have := fields_append w
  rwa [h] at this

theorem decodeWord_nonBasic {w : Word} (h : lowField w = 0) :
    decodeWord w = decodeNonBasic (midField w) (topField w) := by
  simp [decodeWord, h]

/-- What decodes as reserved, in terms of the fields. -/
theorem decodeNonBasic_cases (nbop a : BitVec 6) :
    (nbop = Config.jsrCode ∧ decodeNonBasic nbop a = .jsr (decodeOperand a)) ∨
    (nbop ≠ Config.jsrCode ∧ decodeNonBasic nbop a = .reserved nbop a) := by
  by_cases h : nbop = Config.jsrCode
  · exact .inl ⟨h, by simp [decodeNonBasic, h]⟩
  · exact .inr ⟨h, by simp [decodeNonBasic, h]⟩

end Sys2Proof
end

