-- ==== Sys2Proof/Laws/Exec.lean ====
section
/-! SUPPORT. What an instruction and a step can do, said once (spec/41_step_control.md R84, R86, R89): every claim about a
next state starts from `exec_cases` or `step_cases` and the field lemmas of Laws/Alu.lean. -/

namespace Sys2Proof.Machine

/-- The state a basic instruction leaves. -/
def basicNext (alu : Word → Word → AluOut) (a b : Operand) (s : State) : State :=
  let r := resolveTwo a b s
  writeBack r.va (alu r.x r.y) r.st

/-- The state a JSR leaves. -/
def jsrNext (a : Operand) (s : State) : State := callTo (resolveOne a s).1 (resolveOne a s).2

theorem exec_basic {i : Instr} {alu : Word → Word → AluOut} {a b : Operand} (h : aluOf i = some (alu, a, b)) (s : State) :
    exec i s = .next (basicNext alu a b s) := by
  cases i <;> simp only [aluOf, Option.some.injEq, Prod.mk.injEq, reduceCtorEq] at h <;>
    obtain ⟨rfl, rfl, rfl⟩ := h <;> rfl

theorem exec_jsr (a : Operand) (s : State) : exec (.jsr a) s = .next (jsrNext a s) := rfl

/-- The two ways an instruction completes. -/
theorem exec_cases {i : Instr} {s t : State} (h : exec i s = .next t) :
    (∃ alu a b, aluOf i = some (alu, a, b) ∧ t = basicNext alu a b s) ∨ (∃ a, i = .jsr a ∧ t = jsrNext a s) := by
  cases i with
  | jsr a =>
    rw [exec_jsr] at h
    exact .inr ⟨a, rfl, (Host.Outcome.next.inj h).symm⟩
  | reserved nbop a => exact absurd h (by simp [exec, execReserved, raiseIllegal])
  | set a b | add a b | sub a b | mul a b | div a b | mod a b | shl a b | shr a b | and a b | bor a b | xor a b
  | ife a b | ifn a b | ifg a b | ifb a b =>
    rw [exec_basic (by rfl)] at h
    exact .inl ⟨_, a, b, rfl, (Host.Outcome.next.inj h).symm⟩

theorem isReserved_iff (i : Instr) : isReserved i = true ↔ ∃ nbop a, i = .reserved nbop a := by
  cases i <;> simp [isReserved]

/-- A skipped instruction completes unless it is a reserved word. -/
theorem skipInstr_eq {i : Instr} (h : isReserved i = false) (s : State) : skipInstr i s = .next (skipOver i s) := by
  cases i <;> first | rfl | simp [isReserved] at h

theorem skipInstr_reserved (nbop a : BitVec 6) (s : State) :
    skipInstr (.reserved nbop a) s = raiseIllegal (encode (.reserved nbop a)) s.pc := rfl

theorem skipOver_eq (i : Instr) (s : State) :
    skipOver i s =
      ((s.setPc (pcAfter i.operands s)).setSp (spAfter i.operands s)).setSkip false := by
  simp [skipOver, resolveEffects_eq, pcAfter, spAfter, State.setPc, State.setSp]

theorem step_skip {s : State} (h : s.skip = true) : step s = skipInstr (fetchInstr s) s := by
  rw [step, if_pos h]

theorem step_exec {s : State} (h : s.skip = false) : step s = exec (fetchInstr s) s := by
  rw [step, h, if_neg Bool.false_ne_true]

/-- The three ways a step completes. -/
theorem step_cases {s t : State} (h : step s = .next t) :
    (s.skip = true ∧ isReserved (fetchInstr s) = false ∧ t = skipOver (fetchInstr s) s) ∨
    (s.skip = false ∧ ∃ alu a b, aluOf (fetchInstr s) = some (alu, a, b) ∧ t = basicNext alu a b s) ∨
    (s.skip = false ∧ ∃ a, fetchInstr s = .jsr a ∧ t = jsrNext a s) := by
  unfold step at h
  cases hs : s.skip with
  | true =>
    rw [hs, if_pos rfl] at h
    cases hr : isReserved (fetchInstr s) with
    | true =>
      obtain ⟨nbop, a, hi⟩ := (isReserved_iff _).mp hr
      rw [hi, skipInstr_reserved] at h
      exact absurd h (by simp [raiseIllegal])
    | false =>
      rw [skipInstr_eq hr] at h
      exact .inl ⟨rfl, rfl, (Host.Outcome.next.inj h).symm⟩
  | false =>
    simp only [hs, Bool.false_eq_true, if_false] at h
    rcases exec_cases h with hb | hj
    · exact .inr (.inl ⟨rfl, hb⟩)
    · exact .inr (.inr ⟨rfl, hj⟩)

/-! ### The state a basic instruction leaves, field by field -/

theorem basicNext_cycles (alu : Word → Word → AluOut) (a b : Operand) (s : State) :
    (basicNext alu a b s).cycles = s.cycles := by
  simp [basicNext, writeBack_cycles, resolveTwo_st]

theorem basicNext_skip (alu : Word → Word → AluOut) (a b : Operand) (s : State) :
    (basicNext alu a b s).skip = ((alu (resolveTwo a b s).x (resolveTwo a b s).y).skip || s.skip) := by
  simp [basicNext, writeBack_skip _ _ (resolveTwo_va_ne_skip a b s), resolveTwo_st]

theorem basicNext_ram_wf (alu : Word → Word → AluOut) (a b : Operand) {s : State} (h : s.ram.wf = true) :
    (basicNext alu a b s).ram.wf = true :=
  writeBack_ram_wf _ _ (by simpa [resolveTwo_st] using h)

theorem jsrNext_ram_wf (a : Operand) {s : State} (h : s.ram.wf = true) : (jsrNext a s).ram.wf = true :=
  callTo_ram_wf _ (by simpa [resolveOne_snd] using h)

theorem pcAfter_two (a b : Operand) (s : State) : pcAfter [a, b] s = (resolveTwo a b s).st.pc := by
  simp [pcAfter, resolveTwo_st]

theorem spAfter_two (a b : Operand) (s : State) : spAfter [a, b] s = (resolveTwo a b s).st.sp := by
  simp [spAfter, resolveTwo_st]

/-- A basic instruction leaves everything but its destination, O and Skip as resolution left it. -/
theorem basicNext_frame (alu : Word → Word → AluOut) (a b : Operand) (s : State) :
    BasicFrame (resolveTwo a b s).va a b s (basicNext alu a b s) := by
  constructor
  · intro r h
    simp only [basicNext, writeBack_getReg, if_neg h, resolveTwo_st]
    split <;> rfl
  · intro w h
    simp only [basicNext, writeBack_readRam, if_neg h, resolveTwo_st]
    split <;> rfl
  · intro h
    simp only [basicNext, writeBack_sp, if_neg h, spAfter_two]
    split <;> rfl
  · intro h
    simp only [basicNext, writeBack_pc, if_neg h, pcAfter_two]
    split <;> rfl
  · exact basicNext_cycles alu a b s

/-- A basic instruction that writes its operand leaves the result in the destination cell; in O only when it defines no
overflow word, which is written last (R94). -/
theorem basicNext_dest {alu : Word → Word → AluOut} {a b : Operand} {s : State} {n : Word} {c : Address}
    (hr : (alu (resolveTwo a b s).x (resolveTwo a b s).y).result = some n) (hc : (resolveTwo a b s).va = .addr c)
    (ho : c = .o → (alu (resolveTwo a b s).x (resolveTwo a b s).y).overflow = none) :
    load c (basicNext alu a b s) = n := by
  cases c with
  | skip => exact absurd hc (resolveTwo_va_ne_skip a b s)
  | o => simp [load, basicNext, writeBack_o, ho rfl, hr, hc]
  | pc => simp [load, basicNext, writeBack_pc, hr, hc]
  | sp => simp [load, basicNext, writeBack_sp, hr, hc]
  | register r => simp [load, basicNext, writeBack_getReg, hr, hc]
  | ram w => simp [load, basicNext, writeBack_readRam, hr, hc]

theorem basicNext_overflow {alu : Word → Word → AluOut} {a b : Operand} {s : State} {v : Word}
    (h : (alu (resolveTwo a b s).x (resolveTwo a b s).y).overflow = some v) : (basicNext alu a b s).o = v := by
  simp [basicNext, writeBack_o, h]

theorem basicNext_overflow_none {alu : Word → Word → AluOut} {a b : Operand} {s : State}
    (h : (alu (resolveTwo a b s).x (resolveTwo a b s).y).overflow = none) (hd : (resolveTwo a b s).va ≠ .addr .o) :
    (basicNext alu a b s).o = s.o := by
  simp only [basicNext, writeBack_o, h, if_neg hd, resolveTwo_st]
  split <;> simp_all

/-! ### Stores -/

/-- The two ways an executed instruction stores to RAM: an opcode's result to its destination, or JSR's return address. -/
theorem storeAddress_cases {i : Instr} {s : State} {w : Word} (h : storeAddress i s = some w) :
    (∃ alu a b v, aluOf i = some (alu, a, b) ∧ (resolveTwo a b s).va = .addr (.ram w) ∧
      (alu (resolveTwo a b s).x (resolveTwo a b s).y).result = some v ∧
      (alu (resolveTwo a b s).x (resolveTwo a b s).y).skip = false ∧ storedWord i s = some v) ∨
    (∃ a, i = .jsr a ∧ w = (resolveOne a s).2.sp - 1) := by
  cases i with
  | jsr a => exact .inr ⟨a, rfl, (Option.some.inj h).symm⟩
  | reserved nbop a => exact absurd h (by simp [storeAddress, destination, writesA])
  | ife a b | ifn a b | ifg a b | ifb a b => exact absurd h (by simp [storeAddress, destination, writesA])
  | set a b | add a b | sub a b | mul a b | div a b | mod a b | shl a b | shr a b | and a b | bor a b | xor a b =>
    refine .inl ⟨_, a, b, _, rfl, ?_, rfl, rfl, rfl⟩
    cases hva : (resolveTwo a b s).va with
    | lit n => simp [storeAddress, destination, writesA, hva] at h
    | addr c => cases c <;> simp_all [storeAddress, destination, writesA]

end Sys2Proof.Machine
end

