-- ==== Sys2Proof/Laws/PerInstr.lean ====
section
/-! SUPPORT. The family Fields: for every instruction, where its word keeps the opcode and the operand codes
(spec/30_encoding.md R49, R50, R56, R57). One lemma per constructor. -/

namespace Sys2Proof.Laws.Fields

/-- The low nibble, bits 9..4 and bits 15..10 of the instruction's word. -/
def Statement (i : Instr) : Prop :=
  match i with
  | .set a b => lowField (encode i) = 0x1 ∧ midField (encode i) = encodeOperand a ∧ topField (encode i) = encodeOperand b
  | .add a b => lowField (encode i) = 0x2 ∧ midField (encode i) = encodeOperand a ∧ topField (encode i) = encodeOperand b
  | .sub a b => lowField (encode i) = 0x3 ∧ midField (encode i) = encodeOperand a ∧ topField (encode i) = encodeOperand b
  | .mul a b => lowField (encode i) = 0x4 ∧ midField (encode i) = encodeOperand a ∧ topField (encode i) = encodeOperand b
  | .div a b => lowField (encode i) = 0x5 ∧ midField (encode i) = encodeOperand a ∧ topField (encode i) = encodeOperand b
  | .mod a b => lowField (encode i) = 0x6 ∧ midField (encode i) = encodeOperand a ∧ topField (encode i) = encodeOperand b
  | .shl a b => lowField (encode i) = 0x7 ∧ midField (encode i) = encodeOperand a ∧ topField (encode i) = encodeOperand b
  | .shr a b => lowField (encode i) = 0x8 ∧ midField (encode i) = encodeOperand a ∧ topField (encode i) = encodeOperand b
  | .and a b => lowField (encode i) = 0x9 ∧ midField (encode i) = encodeOperand a ∧ topField (encode i) = encodeOperand b
  | .bor a b => lowField (encode i) = 0xA ∧ midField (encode i) = encodeOperand a ∧ topField (encode i) = encodeOperand b
  | .xor a b => lowField (encode i) = 0xB ∧ midField (encode i) = encodeOperand a ∧ topField (encode i) = encodeOperand b
  | .ife a b => lowField (encode i) = 0xC ∧ midField (encode i) = encodeOperand a ∧ topField (encode i) = encodeOperand b
  | .ifn a b => lowField (encode i) = 0xD ∧ midField (encode i) = encodeOperand a ∧ topField (encode i) = encodeOperand b
  | .ifg a b => lowField (encode i) = 0xE ∧ midField (encode i) = encodeOperand a ∧ topField (encode i) = encodeOperand b
  | .ifb a b => lowField (encode i) = 0xF ∧ midField (encode i) = encodeOperand a ∧ topField (encode i) = encodeOperand b
  | .jsr a => lowField (encode i) = 0x0 ∧ midField (encode i) = 0x01 ∧ topField (encode i) = encodeOperand a
  | .reserved nbop a => lowField (encode i) = 0x0 ∧ midField (encode i) = nbop ∧ topField (encode i) = a

/-- Format B keeps its three fields. -/
theorem of_formatB (op : BitVec 4) (a b : Operand) :
    lowField (formatB op a b) = op ∧ midField (formatB op a b) = encodeOperand a ∧
      topField (formatB op a b) = encodeOperand b :=
  ⟨lowField_formatB .., midField_formatB .., topField_formatB ..⟩

/-- Format N keeps its two fields over a zero nibble. -/
theorem of_formatN (nbop a : BitVec 6) :
    lowField (formatN nbop a) = 0x0 ∧ midField (formatN nbop a) = nbop ∧ topField (formatN nbop a) = a :=
  ⟨lowField_formatN .., midField_formatN .., topField_formatN ..⟩

theorem set (a b : Operand) : Statement (.set a b) := of_formatB _ a b
theorem add (a b : Operand) : Statement (.add a b) := of_formatB _ a b
theorem sub (a b : Operand) : Statement (.sub a b) := of_formatB _ a b
theorem mul (a b : Operand) : Statement (.mul a b) := of_formatB _ a b
theorem div (a b : Operand) : Statement (.div a b) := of_formatB _ a b
theorem mod (a b : Operand) : Statement (.mod a b) := of_formatB _ a b
theorem shl (a b : Operand) : Statement (.shl a b) := of_formatB _ a b
theorem shr (a b : Operand) : Statement (.shr a b) := of_formatB _ a b
theorem and (a b : Operand) : Statement (.and a b) := of_formatB _ a b
theorem bor (a b : Operand) : Statement (.bor a b) := of_formatB _ a b
theorem xor (a b : Operand) : Statement (.xor a b) := of_formatB _ a b
theorem ife (a b : Operand) : Statement (.ife a b) := of_formatB _ a b
theorem ifn (a b : Operand) : Statement (.ifn a b) := of_formatB _ a b
theorem ifg (a b : Operand) : Statement (.ifg a b) := of_formatB _ a b
theorem ifb (a b : Operand) : Statement (.ifb a b) := of_formatB _ a b
theorem jsr (a : Operand) : Statement (.jsr a) := of_formatN _ _
theorem reserved (nbop a : BitVec 6) : Statement (.reserved nbop a) := of_formatN _ _

end Sys2Proof.Laws.Fields
end

