-- ==== Sys2Proof/Tests/Slice0.lean ====
section
/-! SUPPORT. The model's own tests. Expected values come from spec/95_test_vectors.md (the section stands in each heading)
or are worked out from the cited rule. Then one witness for the hypotheses of every statement that has some. -/

namespace Sys2Proof.Tests

open Sys2Proof Sys2Proof.Machine

/-! ### Helpers -/

/-- The reset state with words at the RAM addresses from 0 up (95_test_vectors.md, "Notation"). -/
def boot (ws : List Word) : State := { State.reset with ram := Ram.writeList State.reset.ram 0x0000 ws }

/-- The next state, if the outcome is one. -/
def after : Result → Option State
  | .next t => some t
  | .fault _ => none
  | .refused _ => none

/-- The fault, if the outcome is one. -/
def faultOf : Result → Option Fault
  | .next _ => none
  | .fault f => some f
  | .refused _ => none

/-- The refusal, if the outcome is one. -/
def refusalOf : Result → Option Refusal
  | .next _ => none
  | .fault _ => none
  | .refused e => some e

theorem after_next {o : Result} {t : State} (h : after o = some t) : o = .next t := by
  cases o <;> simp_all [after]

theorem next_of_isSome {o : Result} (h : (after o).isSome = true) : ∃ t, o = .next t := by
  cases o <;> simp_all [after]

theorem fault_of {o : Result} {f : Fault} (h : faultOf o = some f) : o = .fault f := by
  cases o <;> simp_all [faultOf]

/-- `x` in A and `y` in B, the instruction word at PC = 0. -/
def withXY (w x y : Word) : State := ((boot [w]).setReg .a x).setReg .b y

/-- A and O after one step. -/
def resultAndO (s : State) : Option (Word × Word) := (after (step s)).map fun t => (t.regs.a, t.o)

/-- A, O and Skip after one step. -/
def resultOAndSkip (s : State) : Option (Word × Word × Bool) := (after (step s)).map fun t => (t.regs.a, t.o, t.skip)

/-! ### WellFormed: the one check, and what a stream refuses -/

theorem test_wf_refuses_jsr_code_as_reserved : (Instr.reserved 0x01 0x00).wf = false := by decide
theorem test_wf_accepts_reserved_bounds : (Instr.reserved 0x00 0x00).wf = true ∧ (Instr.reserved 0x3F 0x3F).wf = true := by decide
theorem test_unit_refuses_missing_extra_word : unitWf (.set (.reg .a) .nextLit) [] = false := by decide
theorem test_unit_refuses_surplus_extra_word : unitWf (.set (.reg .a) (.lit 1)) [0x0000] = false := by decide
theorem test_unit_refuses_ill_formed_instruction : unitWf (.reserved 0x01 0x00) [] = false := by decide
theorem test_stream_refuses_no_word : decodeUnit [] = .error .noInstructionWord := rfl
theorem test_stream_refuses_missing_words :
    decodeUnit [0x7DE1, 0x1000] = .error (.missingExtraWords (.set .nextInd .nextLit) 2 1) := rfl

/-! ### Decoding, section 2.1 and words written out from the formats (R49, R50): `b` 6 bits, `a` 6 bits, `op` 4 bits -/

theorem test_decode_set : decodeWord 0b0111110000000001 = .set (.reg .a) .nextLit := by decide
theorem test_decode_add : decodeWord 0b1000010000000010 = .add (.reg .a) (.lit 1) := by decide
theorem test_decode_sub : decodeWord 0b1000010001100011 = .sub (.reg .i) (.lit 1) := by decide
theorem test_decode_mul : decodeWord 0b0000010000010100 = .mul (.reg .b) (.reg .b) := by decide
theorem test_decode_div : decodeWord 0b0000010000000101 = .div (.reg .a) (.reg .b) := by decide
theorem test_decode_mod : decodeWord 0b0110110111010110 = .mod .o .sp := by decide
theorem test_decode_shl : decodeWord 0b1001000000000111 = .shl (.reg .a) (.lit 4) := by decide
theorem test_decode_shr : decodeWord 0b0010110011111000 = .shr (.regInd .j) (.regInd .x) := by decide
theorem test_decode_and : decodeWord 0b0101110101001001 = .and (.nextRegInd .y) (.nextRegInd .j) := by decide
theorem test_decode_bor : decodeWord 0b0110010110001010 = .bor .pop .peek := by decide
theorem test_decode_xor : decodeWord 0b0111000110101011 = .xor .push .pc := by decide
theorem test_decode_ife : decodeWord 0b1001010000001100 = .ife (.reg .a) (.lit 5) := by decide
theorem test_decode_ifn : decodeWord 0b1000000001101101 = .ifn (.reg .i) (.lit 0) := by decide
theorem test_decode_ifg : decodeWord 0b0111100000101110 = .ifg (.reg .c) .nextInd := by decide
theorem test_decode_ifb : decodeWord 0b1111111111111111 = .ifb (.lit 0x1F) (.lit 0x1F) := by decide
theorem test_decode_jsr : decodeWord 0b0111110000010000 = .jsr .nextLit := by decide
theorem test_decode_reserved :
    decodeWord 0b0000000000000000 = .reserved 0x00 0x00 ∧ decodeWord 0b1111111111110000 = .reserved 0x3F 0x3F ∧
    decodeWord 0b0000000000100000 = .reserved 0x02 0x00 := by decide

/-- R13, R59: the eight register codes, each in its three rows. -/
theorem test_decode_registers :
    ([0x00, 0x01, 0x02, 0x03, 0x04, 0x05, 0x06, 0x07] : List (BitVec 6)).map decodeOperand =
      [.reg .a, .reg .b, .reg .c, .reg .x, .reg .y, .reg .z, .reg .i, .reg .j] ∧
    decodeOperand 0x08 = .regInd .a ∧ decodeOperand 0x0F = .regInd .j ∧
    decodeOperand 0x10 = .nextRegInd .a ∧ decodeOperand 0x17 = .nextRegInd .j := by decide

theorem test_decode_three_word_unit :
    decodeUnit [0x7DE1, 0x1000, 0x0020, 0x8402] = .ok (.set .nextInd .nextLit, [0x1000, 0x0020], [0x8402]) := rfl

theorem test_table_words :
    decodeTableWord 16 0x0001 = some (.set (.reg .a) (.reg .a)) ∧ decodeTableWord 16 0x000F = some (.ifb (.reg .a) (.reg .a)) ∧
    decodeTableWord 16 0x7C10 = some (.jsr .nextLit) ∧ decodeTableWord 16 0xFFF0 = some (.reserved 0x3F 0x3F) := by decide

/-! ### Operand resolution, section 2.2 -/

theorem test_indexed_store :
    (after (step ((boot [0x7D61, 0x1000, 0x5555]).setReg .i 3))).map (fun t => (t.readRam 0x1003, t.pc)) =
      some (0x5555, 3) := by decide

theorem test_indexed_sum_wraps :
    (after (step ((boot [0x9D61, 0xFFFF]).setReg .i 2))).map (fun t => (t.readRam 0x0001, t.pc)) = some (0x0007, 2) := by decide

theorem test_pop_pop :
    (after (step ((((boot [0x6181]).setSp 0xFFF0).writeRam 0xFFF0 0x1111).writeRam 0xFFF1 0x2222))).map
      (fun t => (t.readRam 0xFFF0, t.sp)) = some (0x2222, 0xFFF2) := by decide

theorem test_peek_pop :
    (after (step (((boot [0x6191]).setSp 0xFFF0).writeRam 0xFFF0 0x1111))).map (fun t => (t.readRam 0xFFF0, t.sp)) =
      some (0x1111, 0xFFF1) := by decide

theorem test_push_pop :
    (after (step (((boot [0x61A1]).setSp 0xFFF0).writeRam 0xFFEF 0x3333))).map (fun t => (t.readRam 0xFFEF, t.sp)) =
      some (0x3333, 0xFFF0) := by decide

theorem test_source_push_reads_stale_word :
    (after (step ((boot [0x6801]).setSp 0x0000))).map (fun t => (t.regs.a, t.sp)) = some (0x0000, 0xFFFF) := by decide

theorem test_literal_destination_pop :
    (after (step (boot [0x63F1]))) = some (((boot [0x63F1]).setPc 1).setSp 0x0000) := by decide

theorem test_literal_word_destination :
    (after (step (boot [0x95F1, 0x9999]))) = some ((boot [0x95F1, 0x9999]).setPc 2) := by decide

theorem test_register_indirect_reads_own_word : (resultAndO (boot [0x2401])) = some (0x2401, 0) := by decide

theorem test_fetch_wraps :
    (after (step (((State.reset.setPc 0xFFFF).writeRam 0xFFFF 0x7C01).writeRam 0 0xABCD))).map (fun t => (t.regs.a, t.pc)) =
      some (0xABCD, 0x0001) := by decide

/-! ### SET, section 1.1 S1 and section 2.2 -/

theorem test_set_memory :
    (after (step ((boot [0x7C01, 0x0030, 0x7DE1, 0x1000, 0x0020]).setPc 2))).map (fun t => (t.readRam 0x1000, t.pc)) =
      some (0x0020, 5) := by decide

theorem test_set_push_sp :
    (after (step (boot [0x6DA1]))).map (fun t => (t.readRam 0xFFFE, t.sp)) = some (0xFFFE, 0xFFFE) := by decide

/-! ### The ALU opcodes, section 2.3: A holds `x`, B holds `y` -/

theorem test_add_wraps : resultAndO (withXY 0x0402 0xFFFF 0xFFFF) = some (0xFFFE, 0x0001) := by decide
theorem test_add_to_o : (after (step ((boot [0x85D2]).setO 0xFFFF))).map State.o = some 0x0001 := by decide
theorem test_sub_borrows : resultAndO (withXY 0x0403 0x0001 0xFFFF) = some (0x0002, 0xFFFF) := by decide
theorem test_sub_unsigned : resultAndO (withXY 0x0403 0x8000 0x0001) = some (0x7FFF, 0x0000) := by decide
theorem test_mul_high_word : resultAndO (withXY 0x0404 0xFFFF 0xFFFF) = some (0x0001, 0xFFFE) := by decide
theorem test_mul_shifted : resultAndO (withXY 0x0404 0x1234 0x0010) = some (0x2340, 0x0001) := by decide
theorem test_div_by_zero : resultAndO ((withXY 0x0405 0x0010 0x0000).setO 0x7777) = some (0x0000, 0x0000) := by decide
theorem test_div_fraction : resultAndO (withXY 0x0405 0x0007 0x0002) = some (0x0003, 0x8000) := by decide
theorem test_mod_by_zero : resultAndO ((withXY 0x0406 0x0007 0x0000).setO 0x7777) = some (0x0000, 0x7777) := by decide
theorem test_mod_remainder : resultAndO (withXY 0x0406 0xFFFF 0x0010) = some (0x000F, 0x0000) := by decide
theorem test_shl_overflow : resultAndO (withXY 0x0407 0x1234 0x0004) = some (0x2340, 0x0001) := by decide
theorem test_shl_count_17 : resultAndO (withXY 0x0407 0x8001 0x0011) = some (0x0000, 0x0002) := by decide
theorem test_shr_overflow : resultAndO (withXY 0x0408 0x1234 0x0004) = some (0x0123, 0x4000) := by decide
theorem test_shr_count_20 : resultAndO (withXY 0x0408 0xFFFF 0x0014) = some (0x0000, 0x0FFF) := by decide
theorem test_and : resultAndO ((withXY 0x0409 0x0F0F 0x00FF).setO 0x7777) = some (0x000F, 0x7777) := by decide
theorem test_bor : resultAndO ((withXY 0x040A 0x0F00 0x000F).setO 0x7777) = some (0x0F0F, 0x7777) := by decide
theorem test_xor : resultAndO ((withXY 0x040B 0x00FF 0xFFFF).setO 0x7777) = some (0xFF00, 0x7777) := by decide

/-- `ADD PC, 2` at PC = 0. -/
theorem test_add_to_pc : (after (step (boot [0x89C2]))).map (fun t => (t.pc, t.o)) = some (0x0003, 0x0000) := by decide

/-- `ADD 0xFFFF, 1` with a literal destination writes O all the same. -/
theorem test_add_to_literal :
    (after (step (boot [0x85F2, 0xFFFF]))) = some (((boot [0x85F2, 0xFFFF]).setPc 2).setO 0x0001) := by decide

/-! ### The conditionals, section 2.4 -/

theorem test_ife_equal : resultOAndSkip ((withXY 0x040C 0x0005 0x0005).setO 0x7777) = some (0x0005, 0x7777, false) := by decide
theorem test_ife_differs : resultOAndSkip (withXY 0x040C 0x0005 0x0006) = some (0x0005, 0x0000, true) := by decide
theorem test_ifn_equal : resultOAndSkip (withXY 0x040D 0x0005 0x0005) = some (0x0005, 0x0000, true) := by decide
theorem test_ifn_differs : resultOAndSkip (withXY 0x040D 0x0005 0x0006) = some (0x0005, 0x0000, false) := by decide
theorem test_ifg_unsigned : resultOAndSkip (withXY 0x040E 0x8000 0x7FFF) = some (0x8000, 0x0000, false) := by decide
theorem test_ifg_equal : resultOAndSkip (withXY 0x040E 0x0007 0x0007) = some (0x0007, 0x0000, true) := by decide
theorem test_ifb_common_bit : resultOAndSkip (withXY 0x040F 0x0003 0x0002) = some (0x0003, 0x0000, false) := by decide
theorem test_ifb_no_common_bit : resultOAndSkip (withXY 0x040F 0x0003 0x0004) = some (0x0003, 0x0000, true) := by decide

/-! ### JSR, section 2.5 -/

theorem test_jsr_pop :
    (after (step (((boot [0x6010]).setSp 0xFFF0).writeRam 0xFFF0 0x4444))).map (fun t => (t.pc, t.sp, t.readRam 0xFFF0)) =
      some (0x4444, 0xFFF0, 0x0001) := by decide

theorem test_jsr_sp :
    (after (step (boot [0x6C10]))).map (fun t => (t.pc, t.sp, t.readRam 0xFFFE)) = some (0xFFFF, 0xFFFE, 0x0001) := by decide

/-! ### A skipped instruction (section 2.6) and the illegal instruction (section 2.7) -/

theorem test_skipped_jsr :
    after (step ((boot [0x7C10, 0x1000]).setSkip true)) = some ((boot [0x7C10, 0x1000]).setPc 2) := by decide

theorem test_skipped_push_moves_sp :
    after (step ((boot [0x95A1]).setSkip true)) = some (((boot [0x95A1]).setPc 1).setSp 0xFFFE) := by decide

theorem test_skipped_condition_does_not_skip :
    after (step ((boot [0x840C]).setSkip true)) = some ((boot [0x840C]).setPc 1) := by decide

theorem test_illegal_zero_word : faultOf (step State.reset) = some (.illegalInstruction 0x0000 0x0000) := by decide

theorem test_illegal_word_in_skipped_slot :
    faultOf (step (((boot [0x840C, 0x0020]).setPc 1).setSkip true)) = some (.illegalInstruction 0x0020 0x0001) := by decide

/-! ### The host's loads (20_memory.md R39, 70_reset_and_hazards.md R134) -/

theorem test_image_is_big_endian :
    after (loadImage [0x7C, 0x01, 0x00, 0x30] State.reset) = some (boot [0x7C01, 0x0030]) := by decide

theorem test_odd_image_is_refused : refusalOf (loadImage [0x7C, 0x01, 0x00] State.reset) = some (.oddImage 3) := by decide

/-- Writing the reset content unlists the address, so equal memories are equal lists. -/
theorem test_ram_is_canonical :
    Ram.write (Ram.write (Ram.write [] 5 1) 3 2) 5 0 = [(3, 2)] ∧
    Ram.write (Ram.write [] 5 1) 3 2 = Ram.write (Ram.write [] 3 2) 5 1 := by decide

/-! ### Witnesses: one for the hypotheses of each statement, at the boundary values of its clauses -/

theorem witness_DecodeOfEncodeIsTheInstruction :
    (Instr.set .push (.lit 0x1F)).wf = true ∧ (Instr.reserved 0x00 0x00).wf = true ∧ (Instr.reserved 0x02 0x3F).wf = true ∧
    (Instr.reserved 0x3F 0x3F).wf = true := by decide

theorem witness_ReservedWordsAreTheUnknownNonBasicCodes :
    isReserved (decodeWord 0x0000) = true ∧ isReserved (decodeWord 0xFFF0) = true ∧ isReserved (decodeWord 0x0020) = true ∧
    isReserved (decodeWord 0x0010) = false ∧ isReserved (decodeWord 0x0001) = false := by decide

theorem witness_UnitsRoundTripThroughAStream :
    unitWf (.set .nextInd .nextLit) [0x1000, 0x0020] = true ∧
    decodeUnit [0x7C01, 0x0030, 0x8402] = .ok (.set (.reg .a) .nextLit, [0x0030], [0x8402]) := ⟨by decide, rfl⟩

theorem witness_ExtraWordsFollowTheOperandCode :
    ([0x00, 0x0F, 0x10, 0x17, 0x18, 0x1D, 0x1E, 0x1F, 0x20, 0x3F] : List (BitVec 6)).map
      (fun c => (decodeOperand c).extraWords) = [0, 0, 1, 1, 0, 0, 1, 1, 0, 0] := by decide

theorem witness_ResolverFollowsTheOperandCodeTable :
    0x08 + Reg.a.code = 0x08 ∧ 0x10 + Reg.j.code = 0x17 ∧
    decodeOperand (0x20 + (0 : BitVec 5).setWidth 6) = .lit 0 ∧ decodeOperand (0x20 + (31 : BitVec 5).setWidth 6) = .lit 31 := by
  decide

/-- The kinds of destination the result statements tell apart: a cell that is not O, O itself, a literal. -/
theorem witness_destinations :
    (resolveTwo (.reg .j) .nextLit State.reset).va = .addr (.register .j) ∧ Address.register .j ≠ .o ∧
    (resolveTwo .push .nextLit State.reset).va = .addr (.ram 0xFFFE) ∧
    (resolveTwo .o (.lit 1) State.reset).va = .addr .o ∧ (resolveTwo (.lit 31) .pop State.reset).va = .lit 31 := by decide

/-- The divisor is zero, or it is not. -/
theorem witness_divisors :
    (resolveTwo (.reg .a) (.lit 0) State.reset).y = 0 ∧ (resolveTwo (.reg .a) (.lit 1) State.reset).y = 1 := by decide

theorem witness_ReservedWordsStopWithTheirWord :
    (0x00 : BitVec 6) ≠ 0x01 ∧ (0x02 : BitVec 6) ≠ 0x01 ∧ (0x3F : BitVec 6) ≠ 0x01 := by decide

theorem witness_SetToALiteralMovesOnlyPcAndSp :
    ((∃ n, Operand.lit 31 = .lit n) ∨ Operand.lit 31 = .nextLit) ∧
    ((∃ n, Operand.nextLit = .lit n) ∨ Operand.nextLit = .nextLit) := ⟨.inl ⟨31, rfl⟩, .inr rfl⟩

theorem witness_LargeShiftCountsClearTheResult :
    (resolveTwo (.reg .a) .nextLit (boot [0x7C07, 16])).y.toNat = 16 ∧
    (resolveTwo (.reg .a) .nextLit (boot [0x7C07, 32])).y.toNat = 32 ∧
    (resolveTwo (.reg .a) .nextLit (boot [0x7C07, 0xFFFF])).y.toNat = 65535 ∧
    (resolveTwo (.reg .a) .nextLit (boot [0x7C07, 16])).va = .addr (.register .a) ∧ Address.register .a ≠ .o ∧
    (resolveTwo .o .nextLit (boot [0x7DD7, 16])).va = .addr .o ∧ (resolveTwo .o .nextLit (boot [0x7DD7, 16])).y.toNat = 16 := by
  decide

theorem witness_DivAndModSplitTheDividend :
    (resolveTwo (.reg .a) (.lit 1) State.reset).va = .addr (.register .a) ∧ Address.register .a ≠ .o ∧
    (resolveTwo (.reg .a) (.lit 1) State.reset).y ≠ 0 := by decide

/-- The instance of 95_test_vectors.md section 1.2, point 2: the ADD carries. -/
theorem witness_AddThenSubRestoresTheCell :
    let s := (boot [0x7C02, 0x0002, 0x7C03, 0x0002]).setReg .a 0xFFFF
    let t1 := ((s.setReg .a 0x0001).setO 0x0001).setPc 2
    ((∃ r, Address.register .a = .register r) ∨ ∃ w, Address.register .a = .ram w) ∧
    (resolveTwo (.reg .a) .nextLit s).va = .addr (.register .a) ∧ exec (.add (.reg .a) .nextLit) s = .next t1 ∧
    (resolveTwo (.reg .a) .nextLit t1).va = .addr (.register .a) ∧
    (resolveTwo (.reg .a) .nextLit t1).y = (resolveTwo (.reg .a) .nextLit s).y :=
  ⟨.inl ⟨.a, rfl⟩, by decide, after_next (by decide), by decide, by decide⟩

theorem witness_RegistersChangeOnlyAsDestination :
    exec (.set (.reg .a) (.lit 5)) (boot [0x9401]) = .next (((boot [0x9401]).setPc 1).setReg .a 5) ∧
    destination (.set (.reg .a) (.lit 5)) (boot [0x9401]) ≠ some (.register .b) := ⟨after_next (by decide), by decide⟩

theorem witness_RamChangesOnlyAtTheStoreAddress :
    exec (.jsr (.lit 6)) (boot [0x9810]) = .next ((((boot [0x9810]).setPc 6).setSp 0xFFFE).writeRam 0xFFFE 1) ∧
    storeAddress (.jsr (.lit 6)) (boot [0x9810]) = some 0xFFFE ∧
    storeAddress (.jsr (.lit 6)) (boot [0x9810]) ≠ some 0xFFFF ∧
    storeAddress (.ife .push (.lit 0)) (boot [0x81AC]) = none := ⟨after_next (by decide), by decide⟩

theorem witness_OverflowChangesOnlyByItsOpcodes :
    exec (.mod (.reg .a) (.lit 0)) (boot [0x8006]) = .next ((boot [0x8006]).setPc 1) ∧
    definesO (.mod (.reg .a) (.lit 0)) = false ∧
    destination (.mod (.reg .a) (.lit 0)) (boot [0x8006]) ≠ some .o := ⟨after_next (by decide), by decide⟩

theorem witness_PcAdvancesByTheLengthUnlessWritten :
    ((∃ t, step (boot [0x9810]) = .next t) ∧ (boot [0x9810]).skip = false ∧ fetchInstr (boot [0x9810]) = .jsr (.lit 6)) ∧
    ((∃ t, step ((boot [0x7C10]).setSkip true) = .next t) ∧ ((boot [0x7C10]).setSkip true).skip = true) ∧
    ((∃ t, step (boot [0x7DE1]) = .next t) ∧ (∀ a, fetchInstr (boot [0x7DE1]) ≠ .jsr a) ∧
      destination (fetchInstr (boot [0x7DE1])) (boot [0x7DE1]) ≠ some .pc) := by
  have h : fetchInstr (boot [0x7DE1]) = .set .nextInd .nextLit := by decide
  refine ⟨⟨next_of_isSome (by decide), by decide⟩, ⟨next_of_isSome (by decide), by decide⟩,
    next_of_isSome (by decide), fun a => ?_, by decide⟩
  rw [h]
  simp

theorem witness_SpMovesOnlyByStackOperandsAndJsr :
    ((∃ t, step (boot [0x6010]) = .next t) ∧ (boot [0x6010]).skip = false ∧ fetchInstr (boot [0x6010]) = .jsr .pop) ∧
    ((∃ t, step ((boot [0x6810]).setSkip true) = .next t) ∧ ((boot [0x6810]).setSkip true).skip = true) ∧
    ((∃ t, step (boot [0x6181]) = .next t) ∧ (∀ a, fetchInstr (boot [0x6181]) ≠ .jsr a) ∧
      destination (fetchInstr (boot [0x6181])) (boot [0x6181]) ≠ some .sp) := by
  have h : fetchInstr (boot [0x6181]) = .set .pop .pop := by decide
  refine ⟨⟨next_of_isSome (by decide), by decide⟩, ⟨next_of_isSome (by decide), by decide⟩,
    next_of_isSome (by decide), fun a => ?_, by decide⟩
  rw [h]
  simp

theorem witness_SkipIsSetOnlyByAFailingConditional :
    step (boot [0x840C]) = .next (((boot [0x840C]).setPc 1).setSkip true) ∧
    step ((boot [0x840C]).setSkip true) = .next ((boot [0x840C]).setPc 1) :=
  ⟨after_next (by decide), after_next (by decide)⟩

theorem witness_SkippedStepOnlyConsumesItsOperands :
    ((boot [0x7DE1, 0x1000, 0x0020]).setSkip true).skip = true ∧
    isReserved (fetchInstr ((boot [0x7DE1, 0x1000, 0x0020]).setSkip true)) = false := by decide

/-- All four conditionals fail on a state of their own, IFG on equal words. -/
theorem witness_FailingConditionSkipsExactlyOneInstruction :
    ((boot [0x840C]).skip = false ∧ conditionFails (fetchInstr (boot [0x840C])) (boot [0x840C])) ∧
    conditionFails (fetchInstr (boot [0x800D])) (boot [0x800D]) ∧ conditionFails (fetchInstr (boot [0x800E])) (boot [0x800E]) ∧
    conditionFails (fetchInstr (boot [0x840F])) (boot [0x840F]) ∧
    isReserved (fetchInstr (((boot [0x840C, 0x7C10, 0x1000]).setPc 1).setSkip true)) = false := by
  have h1 : fetchInstr (boot [0x840C]) = .ife (.reg .a) (.lit 1) := by decide
  have h2 : fetchInstr (boot [0x800D]) = .ifn (.reg .a) (.lit 0) := by decide
  have h3 : fetchInstr (boot [0x800E]) = .ifg (.reg .a) (.lit 0) := by decide
  have h4 : fetchInstr (boot [0x840F]) = .ifb (.reg .a) (.lit 1) := by decide
  rw [h1, h2, h3, h4]
  simp only [conditionFails]
  decide

theorem witness_StepRunsTheDecodedInstruction :
    (Instr.set .push .nextLit).wf = true ∧ (boot [0x7DA1, 0xBEEF]).readRam (boot [0x7DA1, 0xBEEF]).pc = encode (.set .push .nextLit) ∧
    (boot [0x7DA1, 0xBEEF]).skip = false ∧ ((boot [0x7DA1, 0xBEEF]).setSkip true).skip = true := by decide

theorem witness_ReservedWordFaultsEvenWhenSkipped :
    (State.reset.readRam State.reset.pc).toNat % 16 = 0 ∧ (State.reset.readRam State.reset.pc).toNat / 16 % 64 ≠ 1 ∧
    (((boot [0xFFF0]).setSkip true).readRam 0).toNat % 16 = 0 ∧ (((boot [0xFFF0]).setSkip true).readRam 0).toNat / 16 % 64 = 63 := by
  decide

theorem witness_StepCompletesUnlessTheWordIsReserved :
    ((boot [0x0001]).readRam 0).toNat % 16 ≠ 0 ∧ ((boot [0x0010]).readRam 0).toNat / 16 % 64 = 1 ∧
    (∃ t, step (boot [0x0010]) = .next t) := ⟨by decide, by decide, next_of_isSome (by decide)⟩

theorem witness_CyclesIsNeitherWrittenNorRead :
    (∃ t, step (boot [0x9401]) = .next t) ∧ step State.reset = .fault (.illegalInstruction 0x0000 0x0000) :=
  ⟨next_of_isSome (by decide), fault_of (by decide)⟩

/-- `SET [3], 0x8402` writes the word after itself; `JSR 0xFFFE` pushes its return address, 2, onto its own target. -/
theorem witness_StoredWordIsTheNextInstruction :
    (let s := boot [0x7DE1, 0x0003, 0x8402]
     s.skip = false ∧ exec (.set .nextInd .nextLit) s = .next ((s.setPc 3).writeRam 3 0x8402) ∧
     storeAddress (.set .nextInd .nextLit) s = some 3 ∧ storedWord (.set .nextInd .nextLit) s = some 0x8402 ∧
     ((s.setPc 3).writeRam 3 0x8402).pc = 3) ∧
    (let s := boot [0x7C10, 0xFFFE]
     s.skip = false ∧ exec (.jsr .nextLit) s = .next (((s.setPc 0xFFFE).setSp 0xFFFE).writeRam 0xFFFE 2) ∧
     storeAddress (.jsr .nextLit) s = some 0xFFFE ∧ storedWord (.jsr .nextLit) s = some 2 ∧
     (((s.setPc 0xFFFE).setSp 0xFFFE).writeRam 0xFFFE 2).pc = 0xFFFE) :=
  ⟨⟨by decide, after_next (by decide), by decide, by decide, by decide⟩,
    ⟨by decide, after_next (by decide), by decide, by decide, by decide⟩⟩

/-- Program P2 of section 3, its call and its return. -/
theorem witness_CallThenReturnComesBack :
    let s := boot [0x9810, 0, 0, 0, 0, 0, 0x61C1]
    s.skip = false ∧ s.readRam s.pc = encode (.jsr (.lit 6)) ∧
    readValue (resolveOne (.lit 6) s).1 (resolveOne (.lit 6) s).2 = 6 ∧ s.readRam 6 = encode (.set .pc .pop) ∧
    (6 : Word) ≠ spAfter [.lit 6] s - 1 := by decide

/-- Scenario S6 of section 1.1. -/
theorem witness_PushThenPopMovesTheLiteral :
    let s := boot [0x7DA1, 0xBEEF, 0x6001]
    s.skip = false ∧ s.readRam s.pc = encode (.set .push .nextLit) ∧ s.readRam (s.pc + 2) = encode (.set (.reg .a) .pop) ∧
    s.sp - 1 ≠ s.pc + 2 ∧ Reg.b ≠ .a := by decide

theorem witness_StepKeepsTheInvariant :
    (boot [0x7DE1, 0x1000, 0x0020]).Inv ∧
    step (boot [0x7DE1, 0x1000, 0x0020]) = .next (((boot [0x7DE1, 0x1000, 0x0020]).setPc 3).writeRam 0x1000 0x0020) :=
  ⟨by unfold State.Inv; decide, after_next (by decide)⟩

theorem witness_HostOperationsKeepTheInvariant :
    State.reset.Inv ∧ loadProgram [0x8401] State.reset = .next (boot [0x8401]) ∧
    loadImage [0x84, 0x01] State.reset = .next (boot [0x8401]) :=
  ⟨by unfold State.Inv; decide, after_next (by decide), after_next (by decide)⟩

theorem witness_RamReturnsTheLatestWrite :
    [((3 : Word), (7 : Word)), (3, 8)].reverse.find? (fun p => p.1 == 3) = some (3, 8) ∧
    [((3 : Word), (7 : Word))].reverse.find? (fun p => p.1 == 4) = none := by decide

theorem witness_LoadProgramFillsRamFromZero :
    (List.replicate 65536 (0x8401 : Word)).length ≤ 65536 ∧ ([] : List Word).length ≤ 65536 ∧
    0 < (List.replicate 65536 (0x8401 : Word)).length ∧ [(0x8401 : Word)].length ≤ (1 : Word).toNat := by
  rw [List.length_replicate]
  decide

theorem witness_ImagesLoadBigEndianAndBadLoadsAreRefused :
    [(0x7C : Byte)].length % 2 = 1 ∧ 65536 < (List.replicate 65537 (0x8401 : Word)).length := by
  rw [List.length_replicate]
  decide

theorem witness_ExecutionStartsWithTheFirstWord : ((0x8401 : Word) :: []).length ≤ 65536 := by decide

theorem witness_PlacedTableWordIsRunNext :
    decodeTableWord 16 0x7C01 = some (.set (.reg .a) .nextLit) ∧
    after (step (State.reset.withFetchWord 16 0x7C01)) = some ((State.reset.withFetchWord 16 0x7C01).setPc 2) := by decide

end Sys2Proof.Tests
end

/-! PROOFS. The state (spec/10_state.md): which cells a step may change, what a host's store and load agree on, and what reset
and program load leave. Each section states the rules about the model's operations first, then the obligations they settle. -/

namespace Sys2Proof.Machine

/-! ### When a step completes and when it faults (60_exceptions.md R120) -/

theorem exec_completes {i : Instr} (h : isReserved i = false) (s : State) : ∃ t, exec i s = .next t := by
  cases i with
  | reserved nbop a => simp [isReserved] at h
  | jsr a => exact ⟨_, exec_jsr a s⟩
  | set a b | add a b | sub a b | mul a b | div a b | mod a b | shl a b | shr a b | and a b | bor a b | xor a b
  | ife a b | ifn a b | ifg a b | ifb a b => exact ⟨_, exec_basic rfl s⟩

theorem step_completes {s : State} (h : isReserved (fetchInstr s) = false) : ∃ t, step s = .next t := by
  cases hs : s.skip with
  | true => exact ⟨_, (step_skip hs).trans (skipInstr_eq h s)⟩
  | false => exact step_exec hs ▸ exec_completes h s

/-- A reserved word faults whether Skip is set or not (41_step_control.md R92). -/
theorem step_reserved {s : State} {nbop a : BitVec 6} (h : fetchInstr s = .reserved nbop a) :
    step s = raiseIllegal (encode (.reserved nbop a)) s.pc := by
  cases hs : s.skip with
  | true => rw [step_skip hs, h, skipInstr_reserved]
  | false => rw [step_exec hs, h]; rfl

/-- The one way a step faults. -/
theorem step_fault_cases {s : State} {f : Fault} (h : step s = .fault f) :
    ∃ nbop a, fetchInstr s = .reserved nbop a ∧ f = .illegalInstruction (encode (.reserved nbop a)) s.pc := by
  cases hr : isReserved (fetchInstr s) with
  | false =>
    obtain ⟨t, ht⟩ := step_completes hr
    simp [ht] at h
  | true =>
    obtain ⟨nbop, a, hi⟩ := (isReserved_iff _).mp hr
    rw [step_reserved hi] at h
    exact ⟨nbop, a, hi, (Host.Outcome.fault.inj h).symm⟩

/-! ### The state a JSR leaves, field by field (44_nonbasic.md R119) -/

@[simp] theorem jsrNext_getReg (a : Operand) (s : State) (r : Reg) : (jsrNext a s).getReg r = s.getReg r := by
  simp [jsrNext, resolveOne_snd]

@[simp] theorem jsrNext_o (a : Operand) (s : State) : (jsrNext a s).o = s.o := by
  simp [jsrNext, resolveOne_snd]

@[simp] theorem jsrNext_skip (a : Operand) (s : State) : (jsrNext a s).skip = s.skip := by
  simp [jsrNext, resolveOne_snd]

@[simp] theorem jsrNext_cycles (a : Operand) (s : State) : (jsrNext a s).cycles = s.cycles := by
  simp [jsrNext, resolveOne_snd]

@[simp] theorem jsrNext_sp (a : Operand) (s : State) : (jsrNext a s).sp = spAfter [a] s - 1 := by
  simp [jsrNext, resolveOne_snd, spAfter]

/-! ### What kind of ALU function an opcode has (42_alu.md R99, 43_conditionals.md R114) -/

theorem operands_of_aluOf {i : Instr} {alu : Word → Word → AluOut} {a b : Operand} (h : aluOf i = some (alu, a, b)) :
    i.operands = [a, b] := by
  cases i <;> simp_all [aluOf, Instr.operands]

/-- A basic opcode writes `a`, or is a conditional, whose ALU function requests no write at all. -/
theorem aluOf_cases {i : Instr} {alu : Word → Word → AluOut} {a b : Operand} (h : aluOf i = some (alu, a, b)) :
    writesA i = some (a, b) ∨ ∀ x y, (alu x y).result = none ∧ (alu x y).overflow = none := by
  cases i with
  | jsr a | reserved nbop a => simp [aluOf] at h
  | set a b | add a b | sub a b | mul a b | div a b | mod a b | shl a b | shr a b | and a b | bor a b | xor a b =>
    simp only [aluOf, Option.some.injEq, Prod.mk.injEq] at h
    obtain ⟨-, rfl, rfl⟩ := h
    exact .inl rfl
  | ife a b | ifn a b | ifg a b | ifb a b =>
    simp only [aluOf, Option.some.injEq, Prod.mk.injEq] at h
    obtain ⟨rfl, -, -⟩ := h
    exact .inr fun _ _ => ⟨rfl, rfl⟩

theorem aluOf_overflow_none {i : Instr} {alu : Word → Word → AluOut} {a b : Operand} (h : aluOf i = some (alu, a, b))
    (ho : definesO i = false) (x y : Word) : (alu x y).overflow = none := by
  cases i with
  | jsr a | reserved nbop a => simp [aluOf] at h
  | add a b | sub a b | mul a b | div a b | shl a b | shr a b => simp [definesO] at ho
  | set a b | mod a b | and a b | bor a b | xor a b | ife a b | ifn a b | ifg a b | ifb a b =>
    simp only [aluOf, Option.some.injEq, Prod.mk.injEq] at h
    obtain ⟨rfl, -, -⟩ := h
    rfl

/-- The ALU function requests Skip exactly when the instruction is a conditional that fails. -/
theorem aluOf_skip_iff {i : Instr} {alu : Word → Word → AluOut} {a b : Operand} (h : aluOf i = some (alu, a, b))
    (s : State) : (alu (resolveTwo a b s).x (resolveTwo a b s).y).skip = true ↔ conditionFails i s := by
  cases i with
  | jsr a | reserved nbop a => simp [aluOf] at h
  | set a b | add a b | sub a b | mul a b | div a b | mod a b | shl a b | shr a b | and a b | bor a b | xor a b =>
    simp only [aluOf, Option.some.injEq, Prod.mk.injEq] at h
    obtain ⟨rfl, -, -⟩ := h
    exact iff_of_false Bool.false_ne_true id
  | ife a b | ifn a b | ifg a b | ifb a b =>
    simp only [aluOf, Option.some.injEq, Prod.mk.injEq] at h
    obtain ⟨rfl, rfl, rfl⟩ := h
    simp [conditionFails, aluIfe, aluIfn, aluIfg, aluIfb, ifeSkips, ifnSkips, ifgSkips, ifbSkips]

/-! ### What a basic instruction leaves unchanged outside its destination -/

theorem destination_eq_some_iff {i : Instr} {a b : Operand} (h : writesA i = some (a, b)) (s : State) (c : Address) :
    destination i s = some c ↔ (resolveTwo a b s).va = .addr c := by
  cases hva : (resolveTwo a b s).va <;> simp [destination, h, hva]

/-- A basic instruction that requests no write, as a conditional does, has the whole read-only frame (R114). -/
theorem basicNext_readOnly {alu : Word → Word → AluOut} (a b : Operand) (s : State)
    (h : ∀ x y, (alu x y).result = none ∧ (alu x y).overflow = none) :
    ReadOnlyFrame [a, b] s (basicNext alu a b s) where
  registers r := by simp [basicNext, writeBack_getReg, h, resolveTwo_st]
  memory w := by simp [basicNext, writeBack_readRam, h, resolveTwo_st]
  overflow := by simp [basicNext, writeBack_o, h, resolveTwo_st]
  stackPointer := by simp [basicNext, writeBack_sp, h, spAfter_two]
  programCounter := by simp [basicNext, writeBack_pc, h, pcAfter_two]
  cycles := basicNext_cycles alu a b s

/-- A cell that is not the destination is not named by `va`, or nothing is written at all. -/
theorem va_ne_or_readOnly {i : Instr} {alu : Word → Word → AluOut} {a b : Operand} {s : State} {c : Address}
    (h : aluOf i = some (alu, a, b)) (hd : destination i s ≠ some c) :
    (resolveTwo a b s).va ≠ .addr c ∨ ReadOnlyFrame [a, b] s (basicNext alu a b s) := by
  rcases aluOf_cases h with hw | hnone
  · exact .inl fun hva => hd ((destination_eq_some_iff hw s c).mpr hva)
  · exact .inr (basicNext_readOnly a b s hnone)

/-- Settles O34: a basic instruction has its frame around the destination, and a JSR writes no register. -/
theorem registersChangeOnlyAsDestination : Obligations.RegistersChangeOnlyAsDestination := by
  intro i s t r h hd
  rcases exec_cases h with ⟨alu, a, b, hi, rfl⟩ | ⟨a, rfl, rfl⟩
  · rcases va_ne_or_readOnly hi hd with hva | hro
    · exact (basicNext_frame alu a b s).registers r hva
    · exact hro.registers r
  · exact jsrNext_getReg a s r

/-- Settles O36: without an overflow word, O is written only as the destination. -/
theorem overflowChangesOnlyByItsOpcodes : Obligations.OverflowChangesOnlyByItsOpcodes := by
  intro i s t h ho hd
  rcases exec_cases h with ⟨alu, a, b, hi, rfl⟩ | ⟨a, rfl, rfl⟩
  · rcases va_ne_or_readOnly hi hd with hva | hro
    · exact basicNext_overflow_none (aluOf_overflow_none hi ho _ _) hva
    · exact hro.overflow
  · exact jsrNext_o a s

/-- Settles O38, by the three ways a step completes. -/
theorem spMovesOnlyByStackOperandsAndJsr : Obligations.SpMovesOnlyByStackOperandsAndJsr := by
  intro s t h
  rcases step_cases h with ⟨hs, -, rfl⟩ | ⟨hs, alu, a, b, hi, rfl⟩ | ⟨hs, a, hi, rfl⟩
  · exact ⟨by simp [hs], fun _ => by simp [skipOver_eq]⟩
  · refine ⟨fun c _ hj => by simp [hj, aluOf] at hi, fun hc => ?_⟩
    obtain ⟨-, hd⟩ := hc.resolve_left (by simp [hs])
    rw [operands_of_aluOf hi]
    rcases va_ne_or_readOnly hi hd with hva | hro
    · exact (basicNext_frame alu a b s).stackPointer hva
    · exact hro.stackPointer
  · refine ⟨fun c _ hj => ?_, fun hc => by simp [hs, hi] at hc⟩
    obtain rfl : a = c := by simpa [hi] using hj
    exact jsrNext_sp a s

/-! ### The Skip latch and the canonical form of memory, over every step -/

/-- Settles O39: a skipped step clears Skip, a basic one keeps it clear unless its ALU function requests it, a JSR keeps it. -/
theorem skipIsSetOnlyByAFailingConditional : Obligations.SkipIsSetOnlyByAFailingConditional := by
  refine ⟨fun s t h => ?_, fun s => ?_, fun c s => resolve_fst_ne_skip _ s⟩
  · rcases step_cases h with ⟨hs, -, rfl⟩ | ⟨hs, alu, a, b, hi, rfl⟩ | ⟨hs, a, hi, rfl⟩
    · simp [hs, skipOver_eq]
    · simpa [basicNext_skip, hs] using aluOf_skip_iff hi s
    · simp [hs, hi, conditionFails]
  · cases hs : s.skip <;> simp [load, skipWord, hs]

/-- Settles O51: RAM is changed only by a write, which keeps the canonical form. -/
theorem stepKeepsTheInvariant : Obligations.StepKeepsTheInvariant := by
  intro s t hinv h
  rcases step_cases h with ⟨-, -, rfl⟩ | ⟨-, alu, a, b, -, rfl⟩ | ⟨-, a, -, rfl⟩
  · simpa [State.Inv, skipOver_eq] using hinv
  · exact basicNext_ram_wf alu a b hinv
  · exact jsrNext_ram_wf a hinv

/-! ### Every operation commutes with the host's write of Cycles (10_state.md R26) -/

theorem resolve_setCycles (c : Operand) (s : State) (v : Word) :
    resolve c (s.setCycles v) = ((resolve c s).1, (resolve c s).2.setCycles v) := by
  cases c <;> rfl

theorem resolveTwo_setCycles (a b : Operand) (s : State) (v : Word) :
    resolveTwo a b (s.setCycles v) =
      ⟨(resolveTwo a b s).va, (resolveTwo a b s).vb, (resolveTwo a b s).st.setCycles v⟩ := by
  have hf : (fetchWord (s.setCycles v)).2 = (fetchWord s).2.setCycles v := rfl
  simp only [resolveTwo, hf, resolve_setCycles]

theorem resolveOne_setCycles (a : Operand) (s : State) (v : Word) :
    resolveOne a (s.setCycles v) = ((resolveOne a s).1, (resolveOne a s).2.setCycles v) :=
  resolve_setCycles a (fetchWord s).2 v

theorem readValue_setCycles (u : Value) (s : State) (v : Word) : readValue u (s.setCycles v) = readValue u s := by
  match u with
  | .lit _ | .addr .pc | .addr .sp | .addr .o | .addr .skip | .addr (.register _) | .addr (.ram _) => rfl

theorem writeValue_setCycles (u : Value) (n : Word) (s : State) (v : Word) :
    writeValue u n (s.setCycles v) = (writeValue u n s).setCycles v := by
  match u with
  | .lit _ | .addr .pc | .addr .sp | .addr .o | .addr .skip | .addr (.register _) | .addr (.ram _) => rfl

theorem writeResult_setCycles (va : Value) (res : Option Word) (s : State) (v : Word) :
    writeResult va res (s.setCycles v) = (writeResult va res s).setCycles v := by
  cases res with
  | none => rfl
  | some n => exact writeValue_setCycles va n s v

theorem writeOverflow_setCycles (ov : Option Word) (s : State) (v : Word) :
    writeOverflow ov (s.setCycles v) = (writeOverflow ov s).setCycles v := by
  cases ov <;> rfl

theorem requestSkip_setCycles (sk : Bool) (s : State) (v : Word) :
    requestSkip sk (s.setCycles v) = (requestSkip sk s).setCycles v := by
  cases sk <;> rfl

theorem writeBack_setCycles (va : Value) (out : AluOut) (s : State) (v : Word) :
    writeBack va out (s.setCycles v) = (writeBack va out s).setCycles v := by
  simp only [writeBack, writeResult_setCycles, writeOverflow_setCycles, requestSkip_setCycles]

theorem basicNext_setCycles (alu : Word → Word → AluOut) (a b : Operand) (s : State) (v : Word) :
    basicNext alu a b (s.setCycles v) = (basicNext alu a b s).setCycles v := by
  simp only [basicNext, resolveTwo_setCycles, Resolved.x, Resolved.y, readValue_setCycles, writeBack_setCycles]

theorem jsrNext_setCycles (a : Operand) (s : State) (v : Word) :
    jsrNext a (s.setCycles v) = (jsrNext a s).setCycles v := by
  simp only [jsrNext, callTo, resolveOne_setCycles, readValue_setCycles]
  rfl

theorem skipOver_setCycles (i : Instr) (s : State) (v : Word) :
    skipOver i (s.setCycles v) = (skipOver i s).setCycles v := by
  rw [skipOver_eq, skipOver_eq]
  rfl

@[simp] theorem fetchInstr_setCycles (s : State) (v : Word) : fetchInstr (s.setCycles v) = fetchInstr s := rfl

theorem step_cycles {s t : State} (h : step s = .next t) : t.cycles = s.cycles := by
  rcases step_cases h with ⟨-, -, rfl⟩ | ⟨-, alu, a, b, -, rfl⟩ | ⟨-, a, -, rfl⟩
  · simp [skipOver_eq]
  · exact basicNext_cycles alu a b s
  · exact jsrNext_cycles a s

theorem step_setCycles_next {s t : State} (v : Word) (h : step s = .next t) :
    step (s.setCycles v) = .next (t.setCycles v) := by
  rcases step_cases h with ⟨hs, hr, rfl⟩ | ⟨hs, alu, a, b, hi, rfl⟩ | ⟨hs, a, hi, rfl⟩
  · rw [step_skip (by simpa using hs), fetchInstr_setCycles, skipInstr_eq hr, skipOver_setCycles]
  · rw [step_exec (by simpa using hs), fetchInstr_setCycles, exec_basic hi, basicNext_setCycles]
  · rw [step_exec (by simpa using hs), fetchInstr_setCycles, hi, exec_jsr, jsrNext_setCycles]

theorem step_setCycles_fault {s : State} {f : Fault} (v : Word) (h : step s = .fault f) :
    step (s.setCycles v) = .fault f := by
  obtain ⟨nbop, a, hi, rfl⟩ := step_fault_cases h
  exact step_reserved (s := s.setCycles v) hi

/-- Settles O45: every way a step ends commutes with a write of Cycles. -/
theorem cyclesIsNeitherWrittenNorRead : Obligations.CyclesIsNeitherWrittenNorRead := fun _ v =>
  ⟨fun _ h => ⟨step_cycles h, step_setCycles_next v h⟩, fun _ h => step_setCycles_fault v h⟩

/-! ### Operand codes (30_encoding.md R59, 40_operand_resolution.md R69) -/

/-- A form's code resolves as the form does. -/
theorem resolve_encodeOperand (c : Operand) (s : State) : resolve (decodeOperand (encodeOperand c)) s = resolve c s := by
  rw [decodeOperand_encodeOperand]

theorem resolve_lit (n : BitVec 5) (s : State) : resolve (.lit n) s = (.lit (BitVec.ofNat 16 n.toNat), s) := by
  rw [BitVec.ofNat_toNat]
  rfl

/-- Settles O8: each row of the table is `resolve_encodeOperand` at the row's form. -/
theorem resolverFollowsTheOperandCodeTable : Obligations.ResolverFollowsTheOperandCodeTable := by
  refine ⟨by decide, by decide, fun s r n => ?_⟩
  exact ⟨resolve_encodeOperand (.reg r) s, resolve_encodeOperand (.regInd r) s, resolve_encodeOperand (.nextRegInd r) s,
    resolve_encodeOperand .pop s, resolve_encodeOperand .peek s, resolve_encodeOperand .push s,
    resolve_encodeOperand .sp s, resolve_encodeOperand .pc s, resolve_encodeOperand .o s,
    resolve_encodeOperand .nextInd s, resolve_encodeOperand .nextLit s,
    (resolve_encodeOperand (.lit n) s).trans (resolve_lit n s)⟩

/-! ### The host's stores, reset and program load (20_memory.md R32, 70_reset_and_hazards.md R132, R134) -/

/-- No address names Cycles. -/
theorem store_cycles (c : Address) (v : Word) (s : State) : (store c v s).cycles = s.cycles :=
  writeValue_cycles (.addr c) v s

/-- Settles O53, by whether the two cells are the same. -/
theorem loadReturnsTheLastStore : Obligations.LoadReturnsTheLastStore := by
  intro c d v s
  refine ⟨?_, store_cycles c v s⟩
  by_cases hd : d = c
  · subst hd
    rw [load_store_same, if_pos rfl]
    by_cases hk : d = .skip
    · by_cases hv : v = 0#16 <;> simp [hk, hv]
    · simp [hk]
  · rw [if_neg hd, load_store_other v s hd]

theorem loadProgram_next {ws : List Word} (h : ws.length ≤ 65536) (s : State) :
    loadProgram ws s = .next { s with ram := s.ram.writeList 0x0000 ws } :=
  if_pos h

theorem Ram.read_writeList_zero (m : Ram) {ws : List Word} (hl : ws.length ≤ 65536) {i : Nat} (h : i < ws.length) :
    (m.writeList 0x0000 ws).read (BitVec.ofNat 16 i) = ws[i] := by
  simpa using Ram.read_writeList ws m 0x0000 hl i h

theorem Ram.read_writeList_zero_above (m : Ram) {ws : List Word} {w : Word} (h : ws.length ≤ w.toNat) :
    (m.writeList 0x0000 ws).read w = m.read w := by
  simpa using Ram.read_writeList_other ws m 0x0000 h w.isLt

/-- Settles O49: the registers one by one, RAM because it lists no word. -/
theorem resetLeavesEveryCellZeroButSp : Obligations.ResetLeavesEveryCellZeroButSp :=
  ⟨State.reset_getReg, rfl, rfl, rfl, rfl, rfl, Ram.read_nil⟩

/-- Settles O50: the empty list is canonical. -/
theorem resetMeetsTheInvariant : Obligations.ResetMeetsTheInvariant := State.reset_ram_wf

/-- Settles O55, by the laws of writing a list of words. -/
theorem loadProgramFillsRamFromZero : Obligations.LoadProgramFillsRamFromZero := by
  refine ⟨Ram.read_nil, fun ws hl => ⟨_, loadProgram_next hl _, fun i h => ?_, fun w h => ?_, rfl, rfl, rfl, rfl, rfl, rfl⟩⟩
  · exact Ram.read_writeList_zero _ hl h
  · exact (Ram.read_writeList_zero_above _ h).trans (Ram.read_nil w)

/-- Settles O57: after the load the word at PC, which is 0, is the program's first. -/
theorem executionStartsWithTheFirstWord : Obligations.ExecutionStartsWithTheFirstWord := by
  intro w ws hl
  refine ⟨_, loadProgram_next hl _, rfl, rfl, ?_⟩
  have hfirst : (State.reset.ram.writeList 0x0000 (w :: ws)).read 0x0000 = w :=
    Ram.read_writeList_zero _ hl (i := 0) (by simp)
  exact (step_exec rfl).trans (congrArg (fun u => exec (decodeWord u) _) hfirst)

end Sys2Proof.Machine

/-! PROOFS. Memory (spec/20_memory.md): the one RAM word an executed instruction may change and what it holds, what a sequence of
writes leaves, and what the host's stores and loads do to RAM. Each section states the rules first, then the obligations they
settle. -/

namespace Sys2Proof.Machine

/-! ### The RAM word an instruction stores to (42_alu.md R102 to R112, 44_nonbasic.md R119) -/

theorem pcAfter_one (a : Operand) (s : State) : pcAfter [a] s = (resolveOne a s).2.pc := by
  simp [pcAfter, resolveOne_snd]

theorem spAfter_one (a : Operand) (s : State) : spAfter [a] s = (resolveOne a s).2.sp := by
  simp [spAfter, resolveOne_snd]

/-- The one word a JSR stores is the return address, at its stack slot. -/
theorem jsrNext_readRam (a : Operand) (s : State) (w : Word) :
    (jsrNext a s).readRam w = if w = spAfter [a] s - 1 then pcAfter [a] s else s.readRam w := by
  rw [jsrNext, callTo_readRam, ← spAfter_one, ← pcAfter_one, resolveOne_snd]
  rfl

@[simp] theorem storeAddress_jsr (a : Operand) (s : State) : storeAddress (.jsr a) s = some (spAfter [a] s - 1) := by
  rw [spAfter_one]
  rfl

theorem storeAddress_of_destination {i : Instr} {s : State} {w : Word} (h : destination i s = some (.ram w)) :
    storeAddress i s = some w := by
  cases i with
  | jsr a => simp [destination, writesA] at h
  | set a b | add a b | sub a b | mul a b | div a b | mod a b | shl a b | shr a b | and a b | bor a b | xor a b
  | ife a b | ifn a b | ifg a b | ifb a b | reserved nbop a => simp [storeAddress, h]

/-- Settles O35: a basic instruction has its frame around the destination, and a JSR writes its stack slot alone. -/
theorem ramChangesOnlyAtTheStoreAddress : Obligations.RamChangesOnlyAtTheStoreAddress := by
  intro i s t w h hw
  rcases exec_cases h with ⟨alu, a, b, hi, rfl⟩ | ⟨a, rfl, rfl⟩
  · have hd : destination i s ≠ some (.ram w) := fun hd => hw (storeAddress_of_destination hd)
    rcases va_ne_or_readOnly hi hd with hva | hro
    · exact (basicNext_frame alu a b s).memory w hva
    · exact hro.memory w
  · have hslot : w ≠ spAfter [a] s - 1 := fun e => hw (by rw [storeAddress_jsr, e])
    rw [jsrNext_readRam, if_neg hslot]

/-! ### Fetch reads what was stored (20_memory.md R46) -/

/-- With Skip clear, a step executes the decoding of the word at PC. -/
theorem step_of_word {s : State} {w v : Word} (hs : s.skip = false) (hv : s.readRam w = v) (hpc : s.pc = w) :
    step s = exec (decodeWord v) s := by
  rw [step_exec hs, fetchInstr, fetchWord_fst, hpc, hv]

/-- A storing instruction leaves its stored word at its store address, and Skip as it was. -/
theorem exec_stores {i : Instr} {s t : State} {w : Word} (h : exec i s = .next t) (hw : storeAddress i s = some w) :
    ∃ v, storedWord i s = some v ∧ t.readRam w = v ∧ t.skip = s.skip := by
  rcases storeAddress_cases hw with ⟨alu, a, b, v, hi, hva, hres, hskip, hv⟩ | ⟨a, rfl, -⟩
  · obtain rfl := Host.Outcome.next.inj ((exec_basic hi s).symm.trans h)
    exact ⟨v, hv, basicNext_dest hres hva nofun, by rw [basicNext_skip, hskip, Bool.false_or]⟩
  · obtain rfl := Host.Outcome.next.inj ((exec_jsr a s).symm.trans h)
    obtain rfl : spAfter [a] s - 1 = w := by simpa using hw
    exact ⟨pcAfter [a] s, rfl, by rw [jsrNext_readRam, if_pos rfl], jsrNext_skip a s⟩

/-- Settles O46: the stored word stands at its address, and Skip is still clear. -/
theorem storedWordIsTheNextInstruction : Obligations.StoredWordIsTheNextInstruction := by
  intro i s t w hs h hw
  obtain ⟨v, hstored, hread, hskip⟩ := exec_stores h hw
  exact ⟨v, hstored, hread, step_of_word (hskip.trans hs) hread⟩

/-! ### Two extra words, `a`'s first (40_operand_resolution.md R70, R80, R81) -/

theorem resolveTwo_nextInd_nextLit (s : State) :
    resolveTwo .nextInd .nextLit s =
      ⟨.addr (.ram (s.readRam (s.pc + 1))), .lit (s.readRam (s.pc + 2)), s.setPc (s.pc + 3)⟩ := by
  simp [resolveTwo, resolve, State.setPc, State.readRam, BitVec.add_assoc]

/-- `SET [nextword], nextword` stores the second extra word at the address the first one names. -/
theorem basicNext_set_nextInd_nextLit (s : State) :
    basicNext aluSet .nextInd .nextLit s =
      (s.setPc (s.pc + 3)).writeRam (s.readRam (s.pc + 1)) (s.readRam (s.pc + 2)) := by
  rw [basicNext, resolveTwo_nextInd_nextLit]
  rfl

/-- Settles O10: both extra words are read before the store, so the address may be one of the instruction's own. -/
theorem extraWordsAreFetchedInOperandOrder : Obligations.ExtraWordsAreFetchedInOperandOrder := by
  intro s
  refine ⟨_, (exec_basic rfl s).trans (congrArg _ (basicNext_set_nextInd_nextLit s)), ?_, fun w hw => ?_,
    rfl, rfl, rfl, rfl, rfl, rfl⟩
  · exact State.readRam_writeRam_same _ _ _
  · exact State.readRam_writeRam_other _ _ hw

/-! ### A sequence of writes (20_memory.md R36) -/

/-- The last write to an address decides what is read there; without one, what was there before. -/
theorem Ram.read_foldl_write (m : Ram) (writes : List (Word × Word)) (w : Word) :
    Ram.read (writes.foldl (fun m p => Ram.write m p.1 p.2) m) w =
      ((writes.reverse.find? fun p => p.1 == w).map Prod.snd).getD (m.read w) := by
  induction writes using List.reverseRecOn with
  | nil => rfl
  | append_singleton ps p ih =>
    rw [List.foldl_append, List.reverse_append, List.foldl_cons, List.foldl_nil, Ram.read_write]
    by_cases hw : p.1 = w
    · simp [hw]
    · simp [hw, Ne.symm hw, ih]

/-- Settles O54: the fresh memory, which lists no word, reads 0x0000. -/
theorem ramReturnsTheLatestWrite : Obligations.RamReturnsTheLatestWrite := by
  intro writes w
  rw [Ram.read_foldl_write]
  cases writes.reverse.find? (fun p => p.1 == w) with
  | none => exact Ram.read_nil w
  | some p => rfl

/-! ### Byte images (20_memory.md R39) -/

/-- The more significant byte comes first. -/
theorem byte_append_eq_ofNat (hi lo : Byte) : (hi ++ lo : Word) = BitVec.ofNat 16 (hi.toNat * 256 + lo.toNat) := by
  apply BitVec.eq_of_toNat_eq
  have hhi := hi.isLt
  have hlo := lo.isLt
  rw [BitVec.toNat_append, ← Nat.shiftLeft_add_eq_or_of_lt hlo, Nat.shiftLeft_eq, BitVec.toNat_ofNat]
  omega

theorem wordsOfBytes_pairs (pairs : List (Byte × Byte)) :
    wordsOfBytes (pairs.flatMap fun p => [p.1, p.2]) =
      some (pairs.map fun p => BitVec.ofNat 16 (p.1.toNat * 256 + p.2.toNat)) := by
  induction pairs with
  | nil => rfl
  | cons p ps ih => simp [wordsOfBytes, ih, byte_append_eq_ofNat]

theorem wordsOfBytes_odd (bytes : List Byte) (h : bytes.length % 2 = 1) : wordsOfBytes bytes = none := by
  induction bytes using wordsOfBytes.induct with
  | case1 => simp at h
  | case2 b => rfl
  | case3 hi lo rest ih =>
    have hrest : rest.length % 2 = 1 := by
      simp only [List.length_cons] at h
      omega
    rw [wordsOfBytes, ih hrest, Option.map_none]

theorem loadImage_of_words {bytes : List Byte} {ws : List Word} (h : wordsOfBytes bytes = some ws) (s : State) :
    loadImage bytes s = loadProgram ws s := by
  rw [loadImage, h]

theorem loadImage_refused {bytes : List Byte} (h : wordsOfBytes bytes = none) (s : State) :
    loadImage bytes s = .refused (.oddImage bytes.length) := by
  rw [loadImage, h]

theorem loadProgram_refused {ws : List Word} (h : 65536 < ws.length) (s : State) :
    loadProgram ws s = .refused (.programTooLong ws.length) :=
  if_neg (Nat.not_le.mpr h)

/-- Settles O56: the byte pairs give the words, an odd byte is left over, or RAM is too short. -/
theorem imagesLoadBigEndianAndBadLoadsAreRefused : Obligations.ImagesLoadBigEndianAndBadLoadsAreRefused :=
  ⟨fun pairs s => loadImage_of_words (wordsOfBytes_pairs pairs) s,
    fun bytes s h => loadImage_refused (wordsOfBytes_odd bytes h) s,
    fun _ s h => loadProgram_refused h s⟩

/-! ### The canonical form under the host's operations (70_reset_and_hazards.md R137) -/

theorem store_inv (c : Address) (v : Word) {s : State} (h : s.Inv) : (store c v s).Inv :=
  writeValue_ram_wf (.addr c) v h

theorem storeCycles_inv (v : Word) {s : State} (h : s.Inv) : (storeCycles v s).Inv := h

/-- A program load that completes is a list of writes, each of which keeps the canonical form. -/
theorem loadProgram_inv {ws : List Word} {s t : State} (hinv : s.Inv) (h : loadProgram ws s = .next t) : t.Inv := by
  rcases Nat.lt_or_ge 65536 ws.length with hlong | hfits
  · simp [loadProgram_refused hlong] at h
  · rw [loadProgram_next hfits] at h
    obtain rfl := Host.Outcome.next.inj h
    exact Ram.wf_writeList ws 0x0000 hinv

theorem loadImage_inv {bytes : List Byte} {s t : State} (hinv : s.Inv) (h : loadImage bytes s = .next t) : t.Inv := by
  cases hw : wordsOfBytes bytes with
  | none => simp [loadImage_refused hw] at h
  | some ws => exact loadProgram_inv hinv ((loadImage_of_words hw s).symm.trans h)

/-- Settles O52, operation by operation. -/
theorem hostOperationsKeepTheInvariant : Obligations.HostOperationsKeepTheInvariant := fun _ hinv =>
  ⟨fun c v => store_inv c v hinv, fun v => storeCycles_inv v hinv, fun _ _ => loadProgram_inv hinv,
    fun _ _ => loadImage_inv hinv⟩

end Sys2Proof.Machine

/-! PROOFS. Encoding (spec/30_encoding.md): the decoder and the encoder are inverse on words and on units of a stream, and what
the operand codes and the reserved codes mean. Each section states the rules first, then the obligations they settle. -/

namespace Sys2Proof.Machine

/-! ### The instruction word (30_encoding.md R49, R50, R53, R54) -/

/-- Settles O1: each row of the table is one evaluation of the decoder. -/
theorem specWordsDecodeAsListed : Obligations.SpecWordsDecodeAsListed :=
  ⟨rfl, rfl, rfl, rfl, rfl, rfl, rfl, rfl, rfl, rfl, rfl, rfl⟩

theorem decodeWord_formatN (nbop a : BitVec 6) : decodeWord (formatN nbop a) = decodeNonBasic nbop a := by
  rw [decodeWord_nonBasic (lowField_formatN nbop a), midField_formatN, topField_formatN]

/-- Settles O2: format N gives its two fields to `decodeNonBasic`, format B its nibble and its two operand codes back. -/
theorem decodeOfEncodeIsTheInstruction : Obligations.DecodeOfEncodeIsTheInstruction := by
  intro i hwf
  cases i with
  | jsr a => rw [encode, decodeWord_formatN, decodeNonBasic, if_pos rfl, decodeOperand_encodeOperand]
  | reserved nbop a =>
    have hcode : nbop ≠ Config.jsrCode := by simpa [Instr.wf, reservedCode] using hwf
    rw [encode, decodeWord_formatN, decodeNonBasic, if_neg hcode]
  | set a b | add a b | sub a b | mul a b | div a b | mod a b | shl a b | shr a b | and a b | bor a b | xor a b
  | ife a b | ifn a b | ifg a b | ifb a b => simp [encode, decodeWord]

/-- A word with a nonzero low nibble decodes to a basic instruction, whose word it is. -/
theorem decodeWord_basic {w : Word} (h : lowField w ≠ 0) :
    (decodeWord w).wf = true ∧ isReserved (decodeWord w) = false ∧ encode (decodeWord w) = w := by
  unfold decodeWord
  dsimp only
  split
  case h_16 =>
    have hlt := (lowField w).isLt
    have hzero : (lowField w).toNat = 0 := by
      simp only [imp_false] at *
      omega
    exact absurd (lowField_eq hzero) h
  all_goals exact ⟨rfl, rfl, formatB_fields (lowField_eq ‹_›)⟩

theorem decodeNonBasic_wf (nbop a : BitVec 6) : (decodeNonBasic nbop a).wf = true := by
  rcases decodeNonBasic_cases nbop a with ⟨-, hd⟩ | ⟨hn, hd⟩
  · rw [hd]; rfl
  · simpa [hd, Instr.wf, reservedCode] using hn

theorem encode_decodeNonBasic (nbop a : BitVec 6) : encode (decodeNonBasic nbop a) = formatN nbop a := by
  rcases decodeNonBasic_cases nbop a with ⟨rfl, hd⟩ | ⟨-, hd⟩
  · rw [hd, encode, encodeOperand_decodeOperand]
  · rw [hd, encode]

theorem isReserved_decodeNonBasic (nbop a : BitVec 6) :
    isReserved (decodeNonBasic nbop a) = true ↔ nbop ≠ Config.jsrCode := by
  rcases decodeNonBasic_cases nbop a with ⟨hn, hd⟩ | ⟨hn, hd⟩
  · rw [hd]
    exact iff_of_false Bool.false_ne_true fun hne => hne hn
  · rw [hd]
    exact iff_of_true rfl hn

/-- Settles O3, by whether the low nibble is zero. -/
theorem everyWordIsTheEncodingOfItsDecoding : Obligations.EveryWordIsTheEncodingOfItsDecoding := by
  intro w
  by_cases h : lowField w = 0
  · rw [decodeWord_nonBasic h]
    exact ⟨decodeNonBasic_wf _ _, (encode_decodeNonBasic _ _).trans (formatN_fields h)⟩
  · obtain ⟨hwf, -, henc⟩ := decodeWord_basic h
    exact ⟨hwf, henc⟩

/-- Settles O4: every word is a format-B word with its opcode number, or a format-N word. -/
theorem wordsAreBuiltAsTheFormatsSay : Obligations.WordsAreBuiltAsTheFormatsSay :=
  ⟨formatB_toNat 0x1, formatB_toNat 0x2, formatB_toNat 0x3, formatB_toNat 0x4, formatB_toNat 0x5, formatB_toNat 0x6,
    formatB_toNat 0x7, formatB_toNat 0x8, formatB_toNat 0x9, formatB_toNat 0xA, formatB_toNat 0xB, formatB_toNat 0xC,
    formatB_toNat 0xD, formatB_toNat 0xE, formatB_toNat 0xF, fun a => formatN_toNat Config.jsrCode (encodeOperand a),
    formatN_toNat⟩

/-! ### The reserved words (30_encoding.md R57, 60_exceptions.md R120, R121) -/

theorem lowField_eq_zero_iff (w : Word) : lowField w = 0 ↔ w.toNat % 16 = 0 := by
  rw [← lowField_toNat, ← BitVec.toNat_inj]
  rfl

theorem midField_eq_jsrCode_iff (w : Word) : midField w = Config.jsrCode ↔ w.toNat / 16 % 64 = 1 := by
  rw [← midField_toNat, ← BitVec.toNat_inj]
  rfl

/-- Settles O5: a nonzero low nibble is a basic opcode, and under a zero one only JSR's code is not reserved. -/
theorem reservedWordsAreTheUnknownNonBasicCodes : Obligations.ReservedWordsAreTheUnknownNonBasicCodes := by
  intro w
  rw [← lowField_eq_zero_iff, Ne, ← midField_eq_jsrCode_iff]
  by_cases h : lowField w = 0
  · rw [decodeWord_nonBasic h, isReserved_decodeNonBasic]
    exact (and_iff_right h).symm
  · obtain ⟨-, hbasic, -⟩ := decodeWord_basic h
    exact iff_of_false (by simp [hbasic]) fun hc => h hc.1

theorem formatN_eq_ofNat (nbop a : BitVec 6) :
    formatN nbop a = BitVec.ofNat 16 (a.toNat * 1024 + nbop.toNat * 16) := by
  rw [← formatN_toNat, BitVec.ofNat_toNat, BitVec.setWidth_eq]

theorem exec_reserved (nbop a : BitVec 6) (s : State) :
    exec (.reserved nbop a) s = raiseIllegal (encode (.reserved nbop a)) s.pc := rfl

/-- Settles O29: the fault carries the format-N word of the two fields. -/
theorem reservedWordsStopWithTheirWord : Obligations.ReservedWordsStopWithTheirWord := by
  intro nbop a s _
  rw [exec_reserved, encode, formatN_eq_ofNat, raiseIllegal]

/-! ### A unit at the head of a stream (30_encoding.md R51, R60, R66) -/

theorem unitWf_iff (i : Instr) (extra : List Word) :
    unitWf i extra = true ↔ i.wf = true ∧ extra.length = i.extraWords := by
  simp [unitWf]

/-- What `decodeUnit` answers with: the decoding of the first word, and a cut of what follows after that many extra words. -/
theorem decodeUnit_eq_ok_iff (w : Word) (ws : List Word) (i : Instr) (extra rest : List Word) :
    decodeUnit (w :: ws) = .ok (i, extra, rest) ↔
      decodeWord w = i ∧ extra.length = i.extraWords ∧ extra ++ rest = ws := by
  by_cases hshort : ws.length < (decodeWord w).extraWords
  · refine iff_of_false (by simp [decodeUnit, hshort]) ?_
    rintro ⟨rfl, hlen, rfl⟩
    rw [List.length_append] at hshort
    omega
  · simp only [decodeUnit, if_neg hshort, Except.ok.injEq, Prod.mk.injEq]
    constructor
    · rintro ⟨rfl, rfl, rfl⟩
      exact ⟨rfl, List.length_take_of_le (Nat.not_lt.mp hshort), List.take_append_drop _ _⟩
    · rintro ⟨rfl, hlen, rfl⟩
      exact ⟨rfl, List.take_left' hlen, List.drop_left' hlen⟩

/-- Settles O6: the first word by O2 one way and by O3 the other, the extra words by the length it fixes. -/
theorem unitsRoundTripThroughAStream : Obligations.UnitsRoundTripThroughAStream := by
  constructor
  · intro i extra rest hunit
    obtain ⟨hwf, hlen⟩ := (unitWf_iff i extra).mp hunit
    exact (decodeUnit_eq_ok_iff ..).mpr ⟨decodeOfEncodeIsTheInstruction i hwf, hlen, rfl⟩
  · intro ws i extra rest hdec
    cases ws with
    | nil => simp [decodeUnit] at hdec
    | cons w ws =>
      obtain ⟨rfl, hlen, rfl⟩ := (decodeUnit_eq_ok_iff ..).mp hdec
      obtain ⟨hwf, henc⟩ := everyWordIsTheEncodingOfItsDecoding w
      exact ⟨(unitWf_iff _ _).mpr ⟨hwf, hlen⟩, by rw [encodeUnit, henc, List.cons_append]⟩

/-- R60 for the 64 codes. -/
theorem extraWords_decodeOperand (c : BitVec 6) :
    (decodeOperand c).extraWords =
      if (0x10 ≤ c.toNat ∧ c.toNat ≤ 0x17) ∨ c.toNat = 0x1E ∨ c.toNat = 0x1F then 1 else 0 := by
  revert c
  decide

/-- Settles O7: the table of codes, and the PC that resolution leaves. -/
theorem extraWordsFollowTheOperandCode : Obligations.ExtraWordsFollowTheOperandCode := fun c s =>
  ⟨extraWords_decodeOperand c, by rw [resolve_snd, State.setSp_pc, State.setPc_pc]⟩

/-! ### A literal destination (30_encoding.md R62, 40_operand_resolution.md R72) -/

/-- A literal form moves no SP and resolves to a literal Value in every state. -/
theorem literal_destination {a : Operand} (h : (∃ n, a = .lit n) ∨ a = .nextLit) (b : Operand) (s : State) :
    spDelta a = 0 ∧ ∃ n, (resolveTwo a b s).va = .lit n := by
  rcases h with ⟨n, rfl⟩ | rfl
  · exact ⟨rfl, _, rfl⟩
  · exact ⟨rfl, _, rfl⟩

/-- The frame around a literal has no exception; without an overflow word it is the whole read-only frame. -/
theorem basicNext_readOnly_of_literal {alu : Word → Word → AluOut} {a b : Operand} {s : State} {n : Word}
    (hva : (resolveTwo a b s).va = .lit n) (ho : ∀ x y, (alu x y).overflow = none) :
    ReadOnlyFrame [a, b] s (basicNext alu a b s) := by
  have hne : ∀ c, (resolveTwo a b s).va ≠ .addr c := fun c => by rw [hva]; nofun
  have hframe := basicNext_frame alu a b s
  exact {
    registers := fun r => hframe.registers r (hne _)
    memory := fun w => hframe.memory w (hne _)
    overflow := basicNext_overflow_none (ho _ _) (hne _)
    stackPointer := hframe.stackPointer (hne _)
    programCounter := hframe.programCounter (hne _)
    cycles := hframe.cycles }

/-- Settles O30: SET defines no overflow word, and its write to a literal is discarded. -/
theorem setToALiteralMovesOnlyPcAndSp : Obligations.SetToALiteralMovesOnlyPcAndSp := by
  intro a b s hlit
  obtain ⟨hsp, n, hva⟩ := literal_destination hlit b s
  have hro : ReadOnlyFrame [a, b] s (basicNext aluSet a b s) := basicNext_readOnly_of_literal hva fun _ _ => rfl
  refine ⟨_, exec_basic rfl s, by simp [basicNext_skip, aluSet], hro, ?_⟩
  rw [hro.stackPointer]
  simp [spAfter, hsp]

end Sys2Proof.Machine

/-! PROOFS. Operand resolution (spec/40_operand_resolution.md): what the resolver changes, and what SET moves between registers,
literals and the stack. Each section states the rules first, then the obligations they settle. -/

namespace Sys2Proof.Machine

/-! ### What the resolver changes (40_operand_resolution.md R67, R68, R83) -/

theorem add_spDelta (c : Operand) (w : Word) :
    w + spDelta c = if c = .pop then w + 1 else if c = .push then w - 1 else w := by
  cases c with
  | pop => rfl
  | push => exact (BitVec.sub_eq_add_neg w 1).symm
  | reg _ | regInd _ | nextRegInd _ | peek | sp | pc | o | nextInd | nextLit | lit _ => exact BitVec.add_zero w

/-- Settles O9: `resolve_snd` names the two cells resolution can change, and `add_spDelta` what it does to SP. -/
theorem resolutionChangesOnlyPcAndSp : Obligations.ResolutionChangesOnlyPcAndSp := by
  intro c s
  rw [resolve_snd]
  exact ⟨resolve_fst_ne_skip c s, rfl, rfl, rfl, rfl, rfl, rfl, add_spDelta c s.sp⟩

/-! ### SET from a RAM word (40_operand_resolution.md R70, R71, 42_alu.md R102) -/

/-- A RAM word as `b` reads what it held before the instruction: resolution writes no RAM (R68). -/
theorem resolveTwo_y_of_ram {a b : Operand} {s : State} {src : Word} (hvb : (resolveTwo a b s).vb = .addr (.ram src)) :
    (resolveTwo a b s).y = s.readRam src := by
  rw [Resolved.y, hvb, resolveTwo_st]
  rfl

/-- SET from a RAM word to a RAM word moves that word and SP, and leaves the rest of RAM. -/
theorem set_ram_of_ram {a b : Operand} {s : State} {dst src sp' : Word} (hva : (resolveTwo a b s).va = .addr (.ram dst))
    (hvb : (resolveTwo a b s).vb = .addr (.ram src)) (hsp : (resolveTwo a b s).st.sp = sp') :
    ∃ t, exec (.set a b) s = .next t ∧ t.sp = sp' ∧ t.readRam dst = s.readRam src ∧
      ∀ w, w ≠ dst → t.readRam w = s.readRam w := by
  have hframe := basicNext_frame aluSet a b s
  rw [hva] at hframe
  refine ⟨_, exec_basic rfl s, ?_, ?_, fun w hw => hframe.memory w ?_⟩
  · rw [hframe.stackPointer nofun, spAfter_two, hsp]
  · exact (basicNext_dest rfl hva nofun).trans (resolveTwo_y_of_ram hvb)
  · simpa using hw.symm

/-- SET from a RAM word to itself leaves RAM as it was. -/
theorem set_ram_of_itself {a b : Operand} {s : State} {cell sp' : Word} (hva : (resolveTwo a b s).va = .addr (.ram cell))
    (hvb : (resolveTwo a b s).vb = .addr (.ram cell)) (hsp : (resolveTwo a b s).st.sp = sp') :
    ∃ t, exec (.set a b) s = .next t ∧ t.sp = sp' ∧ ∀ w, t.readRam w = s.readRam w := by
  obtain ⟨t, ht, htsp, hcell, hrest⟩ := set_ram_of_ram hva hvb hsp
  refine ⟨t, ht, htsp, fun w => ?_⟩
  by_cases hw : w = cell
  · rw [hw, hcell]
  · exact hrest w hw

/-- SET from a RAM word to a register copies the word, moves SP by the source operand and leaves RAM as it was. -/
theorem set_reg_of_ram {b : Operand} {s : State} {src sp' : Word} (r : Reg)
    (hvb : (resolveTwo (.reg r) b s).vb = .addr (.ram src)) (hsp : (resolveTwo (.reg r) b s).st.sp = sp') :
    ∃ t, exec (.set (.reg r) b) s = .next t ∧ t.getReg r = s.readRam src ∧ t.sp = sp' ∧
      ∀ w, t.readRam w = s.readRam w := by
  have hframe : BasicFrame (.addr (.register r)) (.reg r) b s (basicNext aluSet (.reg r) b s) :=
    basicNext_frame aluSet (.reg r) b s
  refine ⟨_, exec_basic rfl s, ?_, ?_, fun w => hframe.memory w nofun⟩
  · exact (basicNext_dest (c := .register r) rfl rfl nofun).trans (resolveTwo_y_of_ram hvb)
  · rw [hframe.stackPointer nofun, spAfter_two, hsp]

/-- Settles O11: each pair of operands gives its destination cell, its source cell and the last SP, the source's counted from the
SP that the destination leaves. In five of the nine pairs the two cells are one. -/
theorem stackOperandsMoveInOrder : Obligations.StackOperandsMoveInOrder := by
  intro s
  have hpopPop : s.sp + 1 + 1 = s.sp + 2 := BitVec.add_assoc ..
  have hpushPush : s.sp - 1 - 1 = s.sp - 2 := by bv_omega
  have hpushPop : s.sp - 1 + 1 = s.sp := BitVec.sub_add_cancel ..
  have hpopPush : s.sp + 1 - 1 = s.sp := BitVec.add_sub_cancel ..
  refine ⟨set_ram_of_ram rfl rfl hpopPop, set_ram_of_itself rfl rfl hpushPop, set_ram_of_itself rfl rfl rfl,
    set_ram_of_ram rfl rfl rfl, set_ram_of_itself rfl rfl rfl, set_ram_of_itself rfl rfl rfl,
    set_ram_of_itself rfl ?popPush hpopPush, set_ram_of_ram rfl ?pushPush hpushPush, set_ram_of_ram rfl rfl rfl,
    fun r => ⟨set_reg_of_ram r rfl rfl, set_reg_of_ram r rfl rfl, set_reg_of_ram r rfl rfl⟩⟩
  case popPush => exact congrArg (fun w => Value.addr (.ram w)) hpopPush
  case pushPush => exact congrArg (fun w => Value.addr (.ram w)) hpushPush

/-! ### A literal over the stack into a register (40_operand_resolution.md R76, R78, R81) -/

/-- With Skip clear, a step executes the instruction whose encoding stands at PC. -/
theorem step_of_encode {i : Instr} {s : State} (hwf : i.wf = true) (hs : s.skip = false)
    (hword : s.readRam s.pc = encode i) : step s = exec i s := by
  rw [step_of_word hs hword rfl, decodeOfEncodeIsTheInstruction i hwf]

/-- The state `SET PUSH, nextword` leaves. -/
def literalPushed (s : State) : State :=
  ((s.setPc (s.pc + 2)).setSp (s.sp - 1)).writeRam (s.sp - 1) (s.readRam (s.pc + 1))

/-- The state `SET r, POP` leaves. -/
def poppedInto (r : Reg) (s : State) : State := ((s.setPc (s.pc + 1)).setSp (s.sp + 1)).setReg r (s.readRam s.sp)

theorem exec_set_push_nextLit (s : State) : exec (.set .push .nextLit) s = .next (literalPushed s) := by
  have hpc : s.pc + 1 + 1 = s.pc + 2 := BitVec.add_assoc ..
  rw [literalPushed, ← hpc]
  rfl

theorem exec_set_reg_pop (r : Reg) (s : State) : exec (.set (.reg r) .pop) s = .next (poppedInto r s) := rfl

theorem literalPushed_readRam_slot (s : State) : (literalPushed s).readRam (s.sp - 1) = s.readRam (s.pc + 1) :=
  State.readRam_writeRam_same ..

theorem literalPushed_readRam_other {s : State} {w : Word} (h : w ≠ s.sp - 1) :
    (literalPushed s).readRam w = s.readRam w :=
  State.readRam_writeRam_other _ _ h

/-- Settles O48: the POP is fetched as it stood, since the pushed slot is another word, and it reads what the PUSH stored. -/
theorem pushThenPopMovesTheLiteral : Obligations.PushThenPopMovesTheLiteral := by
  intro r s hs hpush hpop hslot
  have hstep1 : step s = .next (literalPushed s) := (step_of_encode rfl hs hpush).trans (exec_set_push_nextLit s)
  have hfetch : (literalPushed s).readRam (literalPushed s).pc = encode (.set (.reg r) .pop) :=
    (literalPushed_readRam_other hslot.symm).trans hpop
  have hstep2 : step (literalPushed s) = .next (poppedInto r (literalPushed s)) :=
    (step_of_encode (s := literalPushed s) rfl hs hfetch).trans (exec_set_reg_pop r _)
  refine ⟨_, _, hstep1, hstep2, (State.setReg_getReg_same ..).trans (literalPushed_readRam_slot s),
    BitVec.sub_add_cancel s.sp 1, BitVec.add_assoc s.pc 2 1,
    literalPushed_readRam_slot s, fun _ hw => literalPushed_readRam_other hw,
    fun _ hk => State.setReg_getReg_other _ _ hk, rfl, hs, rfl⟩

end Sys2Proof.Machine

/-! PROOFS. Step control (spec/41_step_control.md): which instruction a step runs, when it completes and when it faults, what a
skipped step and a failing conditional leave, and where PC ends. Each section states the rules first, then the obligations they
settle. -/

namespace Sys2Proof.Machine

/-! ### The instruction a step runs (41_step_control.md R84, 30_encoding.md R53) -/

theorem fetchInstr_of_encode {i : Instr} {s : State} (hwf : i.wf = true) (hword : s.readRam s.pc = encode i) :
    fetchInstr s = i := by
  rw [fetchInstr, fetchWord_fst, hword, decodeOfEncodeIsTheInstruction i hwf]

/-- Settles O42: the word at PC decodes to the instruction, and Skip selects between the two. -/
theorem stepRunsTheDecodedInstruction : Obligations.StepRunsTheDecodedInstruction := by
  intro i s hwf hword
  have hfetch : fetchInstr s = i := fetchInstr_of_encode hwf hword
  exact ⟨fun hs => by rw [step_exec hs, hfetch], fun hs => by rw [step_skip hs, hfetch]⟩

/-- The decoder reads a table word's instruction from its lowest 16 bits alone. -/
theorem decodeWord_of_decodeTableWord {nbits w : Nat} {i : Instr} (h : decodeTableWord nbits w = some i) :
    decodeWord (wrap16 (w % 2 ^ nbits)) = i := by
  unfold decodeTableWord at h
  split at h
  · next j extra rest hdec =>
    obtain ⟨hword, -⟩ := (decodeUnit_eq_ok_iff ..).mp hdec
    exact hword.trans (Option.some.inj h)
  · exact nomatch h

theorem withFetchWord_readRam_pc (s : State) (nbits w : Nat) :
    (s.withFetchWord nbits w).readRam s.pc = wrap16 (w % 2 ^ nbits) := by
  have hlen : (tableWords nbits w).length = 3 := rfl
  have hfirst := Ram.read_writeList (tableWords nbits w) s.ram s.pc (by omega) 0 (by omega)
  rw [BitVec.add_zero] at hfirst
  exact hfirst

/-- Settles O58: the word at PC is the table word's first, and Skip is clear. -/
theorem placedTableWordIsRunNext : Obligations.PlacedTableWordIsRunNext := by
  intro s nbits w i h
  refine ⟨?_, rfl, rfl, rfl, rfl, rfl⟩
  rw [step_of_word rfl (withFetchWord_readRam_pc s nbits w) rfl, decodeWord_of_decodeTableWord h]

/-! ### Reserved words, with Skip set or clear (41_step_control.md R92, 60_exceptions.md R120, R121) -/

/-- Settles O43: the word decodes as reserved, and the fault carries its encoding, which is the word. -/
theorem reservedWordFaultsEvenWhenSkipped : Obligations.ReservedWordFaultsEvenWhenSkipped := by
  intro s hlow hmid
  have hreserved : isReserved (fetchInstr s) = true := (reservedWordsAreTheUnknownNonBasicCodes _).mpr ⟨hlow, hmid⟩
  obtain ⟨nbop, a, hi⟩ := (isReserved_iff _).mp hreserved
  obtain ⟨-, hencode⟩ := everyWordIsTheEncodingOfItsDecoding (s.readRam s.pc)
  rw [step_reserved hi, ← hi, fetchInstr, fetchWord_fst, hencode, raiseIllegal]

theorem step_next_or_fault (s : State) :
    (isReserved (fetchInstr s) = false ∧ ∃ t, step s = .next t) ∨
    (isReserved (fetchInstr s) = true ∧ ∃ f, step s = .fault f) := by
  cases hr : isReserved (fetchInstr s) with
  | false => exact .inl ⟨rfl, step_completes hr⟩
  | true =>
    obtain ⟨nbop, a, hi⟩ := (isReserved_iff _).mp hr
    exact .inr ⟨rfl, _, step_reserved hi⟩

theorem fetchInstr_not_reserved_iff (s : State) :
    isReserved (fetchInstr s) = false ↔
      (s.readRam s.pc).toNat % 16 ≠ 0 ∨ (s.readRam s.pc).toNat / 16 % 64 = 1 := by
  rw [← Bool.not_eq_true, fetchInstr, reservedWordsAreTheUnknownNonBasicCodes, not_and_or, not_not, fetchWord_fst]

/-- Settles O44: a word that is not reserved completes; a reserved one faults, which is neither a next state nor a refusal. -/
theorem stepCompletesUnlessTheWordIsReserved : Obligations.StepCompletesUnlessTheWordIsReserved := by
  intro s
  rw [← fetchInstr_not_reserved_iff]
  rcases step_next_or_fault s with ⟨hr, t, ht⟩ | ⟨hr, f, hf⟩
  · exact ⟨iff_of_true hr ⟨t, ht⟩, by simp [ht]⟩
  · exact ⟨iff_of_false (by simp [hr]) (by simp [hf]), by simp [hf]⟩

/-! ### Where PC ends (41_step_control.md R95) -/

theorem pcAfter_operands (i : Instr) (s : State) : pcAfter i.operands s = s.pc + BitVec.ofNat 16 i.length := by
  rw [pcAfter, Instr.length, Instr.extraWords, BitVec.ofNat_add, ← BitVec.add_assoc]
  rfl

/-- Settles O37, by the three ways a step completes. -/
theorem pcAdvancesByTheLengthUnlessWritten : Obligations.PcAdvancesByTheLengthUnlessWritten := by
  intro s t h
  rw [← pcAfter_operands]
  rcases step_cases h with ⟨hs, -, rfl⟩ | ⟨hs, alu, a, b, hi, rfl⟩ | ⟨hs, a, hi, rfl⟩
  · exact ⟨by simp [hs], fun _ => by simp [skipOver_eq]⟩
  · refine ⟨fun c _ hj => by simp [hj, aluOf] at hi, fun hc => ?_⟩
    obtain ⟨-, hd⟩ := hc.resolve_left (by simp [hs])
    rw [operands_of_aluOf hi]
    rcases va_ne_or_readOnly hi hd with hva | hro
    · exact (basicNext_frame alu a b s).programCounter hva
    · exact hro.programCounter
  · refine ⟨fun c _ hj => ?_, fun hc => by simp [hs, hi] at hc⟩
    obtain rfl : a = c := by simpa [hi] using hj
    rfl

/-! ### A skipped step, and the conditional that causes it (41_step_control.md R88 to R91) -/

theorem skipOver_readOnly (i : Instr) (s : State) : ReadOnlyFrame i.operands s (skipOver i s) := by
  rw [skipOver_eq]
  exact ⟨fun _ => rfl, fun _ => rfl, rfl, rfl, rfl, rfl⟩

/-- Settles O40: `skipOver` is all a skipped step does. -/
theorem skippedStepOnlyConsumesItsOperands : Obligations.SkippedStepOnlyConsumesItsOperands := fun s hs hr =>
  ⟨_, (step_skip hs).trans (skipInstr_eq hr s), rfl, skipOver_readOnly _ s⟩

/-- A condition can fail only in a conditional, whose ALU function requests no write. -/
theorem aluOf_of_conditionFails {i : Instr} {s : State} (h : conditionFails i s) :
    ∃ alu a b, aluOf i = some (alu, a, b) ∧ ∀ x y, (alu x y).result = none ∧ (alu x y).overflow = none := by
  cases i with
  | ife a b | ifn a b | ifg a b | ifb a b => exact ⟨_, a, b, rfl, fun _ _ => ⟨rfl, rfl⟩⟩
  | set a b | add a b | sub a b | mul a b | div a b | mod a b | shl a b | shr a b | and a b | bor a b | xor a b
  | jsr a | reserved nbop a => exact h.elim

theorem step_of_conditionFails {s : State} (hs : s.skip = false) (h : conditionFails (fetchInstr s) s) :
    ∃ t, step s = .next t ∧ t.skip = true ∧ ReadOnlyFrame (fetchInstr s).operands s t := by
  obtain ⟨alu, a, b, hi, hnone⟩ := aluOf_of_conditionFails h
  refine ⟨basicNext alu a b s, (step_exec hs).trans (exec_basic hi s), ?_, ?_⟩
  · rw [basicNext_skip, (aluOf_skip_iff hi s).mpr h, Bool.true_or]
  · rw [operands_of_aluOf hi]
    exact basicNext_readOnly a b s hnone

/-- Settles O41: the failing conditional sets Skip and writes nothing else, and the next step is a skipped one. -/
theorem failingConditionSkipsExactlyOneInstruction : Obligations.FailingConditionSkipsExactlyOneInstruction := by
  intro s hs hfails
  obtain ⟨t1, hstep1, hskip1, hframe1⟩ := step_of_conditionFails hs hfails
  refine ⟨t1, hstep1, hskip1, hframe1, fun hr => ?_⟩
  obtain ⟨t2, hstep2, hskip2, hframe2⟩ := skippedStepOnlyConsumesItsOperands t1 hskip1 hr
  refine ⟨t2, hstep2, hskip2, hframe2, ?_⟩
  rw [hframe2.programCounter, pcAfter_operands, hframe1.programCounter, pcAfter_operands, BitVec.ofNat_add,
    BitVec.add_assoc]

/-! ### SET from the special cells, read after resolution (41_step_control.md R93, decision D5) -/

/-- Settles O12: SET leaves `y` in its destination, and `y` is the cell that resolution left. -/
theorem specialCellsAreReadAfterResolution : Obligations.SpecialCellsAreReadAfterResolution := by
  intro s r
  have hpush : BasicFrame (.addr (.ram (s.sp - 1))) .push .sp s (basicNext aluSet .push .sp s) :=
    basicNext_frame aluSet .push .sp s
  have hreg : BasicFrame (.addr (.register r)) (.reg r) .pc s (basicNext aluSet (.reg r) .pc s) :=
    basicNext_frame aluSet (.reg r) .pc s
  refine ⟨⟨_, exec_basic rfl s, ?_, ?_⟩, ⟨_, exec_basic rfl s, ?_, ?_⟩⟩
  · rw [hpush.stackPointer nofun, spAfter_two]
    rfl
  · exact basicNext_dest (c := .ram (s.sp - 1)) rfl rfl nofun
  · exact basicNext_dest (c := .register r) rfl rfl nofun
  · rw [hreg.programCounter nofun, pcAfter_two]
    rfl

/-! ### Shift counts of 16 and more (42_alu.md R108, R109, decision D10) -/

theorem wrap16_toNat (x : Word) : wrap16 x.toNat = x := by
  rw [wrap16, BitVec.ofNat_toNat, BitVec.setWidth_eq]

theorem wrap16_mul_two_pow (n : Nat) {k : Nat} (h : 16 ≤ k) : wrap16 (n * 2 ^ k) = 0x0000 :=
  BitVec.eq_of_toNat_eq (Nat.mod_eq_zero_of_dvd (dvd_mul_of_dvd_right (Nat.pow_dvd_pow 2 h) n))

theorem aluShl_result_of_large {x y : Word} (h : 16 ≤ y.toNat) : (aluShl x y).result = some 0x0000 :=
  congrArg some (wrap16_mul_two_pow x.toNat h)

theorem aluShr_result_of_large {x y : Word} (h : 16 ≤ y.toNat) : (aluShr x y).result = some 0x0000 := by
  have hlt : x.toNat < 2 ^ y.toNat := x.isLt.trans_le (Nat.pow_le_pow_right Nat.two_pos h)
  rw [aluShr, Nat.div_eq_of_lt hlt]
  rfl

theorem shlOverflow_of_sixteen {x y : Word} (h : y.toNat = 16) : shlOverflow x y = x := by
  rw [shlOverflow, h, Nat.mul_div_cancel _ (Nat.two_pow_pos 16), wrap16_toNat]

theorem shrOverflow_of_sixteen {x y : Word} (h : y.toNat = 16) : shrOverflow x y = x := by
  rw [shrOverflow, h, Nat.mul_div_cancel _ (Nat.two_pow_pos 16), wrap16_toNat]

/-- From 32 up every bit of `x` is above bits 31..16. -/
theorem shlOverflow_of_large {x y : Word} (h : 32 ≤ y.toNat) : shlOverflow x y = 0x0000 := by
  obtain ⟨k, hk⟩ := Nat.exists_eq_add_of_le h
  have hsplit : x.toNat * 2 ^ y.toNat = x.toNat * 2 ^ (16 + k) * 2 ^ 16 := by
    rw [hk, mul_assoc, ← pow_add]
    congr 2
    omega
  rw [shlOverflow, hsplit, Nat.mul_div_cancel _ (Nat.two_pow_pos 16), wrap16_mul_two_pow _ (Nat.le_add_right 16 k)]

/-- From 32 up every bit of `x` is below the 16 bits kept. -/
theorem shrOverflow_of_large {x y : Word} (h : 32 ≤ y.toNat) : shrOverflow x y = 0x0000 := by
  have hlt : x.toNat * 2 ^ 16 < 2 ^ y.toNat :=
    calc x.toNat * 2 ^ 16 < 2 ^ 32 := by have := x.isLt; omega
      _ ≤ 2 ^ y.toNat := Nat.pow_le_pow_right Nat.two_pos h
  rw [shrOverflow, Nat.div_eq_of_lt hlt]
  rfl

/-- A count of 16 or more clears a destination other than O, which is written last. -/
theorem shifts_clear_destination {a b : Operand} {s : State} {c : Address} (hy : 16 ≤ (resolveTwo a b s).y.toNat)
    (hva : (resolveTwo a b s).va = .addr c) (ho : c ≠ .o) :
    load c (basicNext aluShl a b s) = 0x0000 ∧ load c (basicNext aluShr a b s) = 0x0000 :=
  ⟨basicNext_dest (aluShl_result_of_large hy) hva fun h => absurd h ho,
    basicNext_dest (aluShr_result_of_large hy) hva fun h => absurd h ho⟩

/-- Settles O31: the destination is cleared in both cases, and O holds the overflow word of the count. -/
theorem largeShiftCountsClearTheResult : Obligations.LargeShiftCountsClearTheResult := by
  intro a b s r
  have hshl : (basicNext aluShl a b s).o = shlOverflow r.x r.y := basicNext_overflow rfl
  have hshr : (basicNext aluShr a b s).o = shrOverflow r.x r.y := basicNext_overflow rfl
  refine ⟨_, _, exec_basic rfl s, exec_basic rfl s, fun hy => ⟨?_, ?_, ?_⟩, fun hy => ⟨?_, ?_, ?_⟩⟩
  · rw [hshl, shlOverflow_of_sixteen hy]
  · rw [hshr, shrOverflow_of_sixteen hy]
  · exact fun c => shifts_clear_destination hy.ge
  · rw [hshl, shlOverflow_of_large hy]
  · rw [hshr, shrOverflow_of_large hy]
  · exact fun c => shifts_clear_destination (le_trans (by decide) hy)

end Sys2Proof.Machine

/-! PROOFS. The opcodes that write `a` (spec/42_alu.md): what executing one leaves, said once for the opcodes that leave O
alone and once for those that define it; the ALU's results as word arithmetic; and the obligations they settle. -/

namespace Sys2Proof.Machine

/-! ### What an opcode that writes `a` leaves (42_alu.md R99, R113, 41_step_control.md R86) -/

/-- An opcode without an overflow word leaves its result in every destination cell, O included. -/
theorem exec_result {i : Instr} {alu : Word → Word → AluOut} {a b : Operand} {s : State} {n : Word}
    (hi : aluOf i = some (alu, a, b)) (halu : alu (resolveTwo a b s).x (resolveTwo a b s).y = ⟨some n, none, false⟩) :
    ∃ t, exec i s = .next t ∧ (∀ c, (resolveTwo a b s).va = .addr c → load c t = n) ∧
      ((resolveTwo a b s).va ≠ .addr .o → t.o = s.o) ∧ t.skip = s.skip ∧ BasicFrame (resolveTwo a b s).va a b s t := by
  refine ⟨basicNext alu a b s, exec_basic hi s, fun c hc => ?_, fun ho => ?_, ?_, basicNext_frame alu a b s⟩
  · exact basicNext_dest (by rw [halu]) hc fun _ => by rw [halu]
  · exact basicNext_overflow_none (by rw [halu]) ho
  · rw [basicNext_skip, halu, Bool.false_or]

/-- An opcode with an overflow word leaves it in O, and its result in every other destination cell (R94, decision D4). -/
theorem exec_result_overflow {i : Instr} {alu : Word → Word → AluOut} {a b : Operand} {s : State} {n ov : Word}
    (hi : aluOf i = some (alu, a, b))
    (halu : alu (resolveTwo a b s).x (resolveTwo a b s).y = ⟨some n, some ov, false⟩) :
    ∃ t, exec i s = .next t ∧ (∀ c, (resolveTwo a b s).va = .addr c → c ≠ .o → load c t = n) ∧ t.o = ov ∧
      t.skip = s.skip ∧ BasicFrame (resolveTwo a b s).va a b s t := by
  refine ⟨basicNext alu a b s, exec_basic hi s, fun c hc ho => ?_, ?_, ?_, basicNext_frame alu a b s⟩
  · exact basicNext_dest (by rw [halu]) hc fun h => absurd h ho
  · exact basicNext_overflow (by rw [halu])
  · rw [basicNext_skip, halu, Bool.false_or]

/-! ### The ALU functions in word arithmetic (42_alu.md R103 to R109) -/

theorem toNat_wrap16 (n : Nat) : (wrap16 n).toNat = n % 65536 := BitVec.toNat_ofNat n 16

theorem toNat_wrap16_of_lt {n : Nat} (h : n < 65536) : (wrap16 n).toNat = n := by
  rw [toNat_wrap16, Nat.mod_eq_of_lt h]

theorem word_toNat_eq_zero_iff (y : Word) : y.toNat = 0 ↔ y = 0 := BitVec.toNat_inj (y := (0 : Word))

/-- A result or an overflow word that is 0 on a zero divisor (R106, R107). -/
theorem toNat_zero_on_zero_divisor (y : Word) (n : Nat) :
    (if y.toNat = 0 then 0x0000 else wrap16 n).toNat = if y = 0 then 0 else n % 65536 := by
  simp only [word_toNat_eq_zero_iff]
  split
  · rfl
  · exact toNat_wrap16 n

theorem toNat_word_sub (x y : Word) : (x - y).toNat = (x.toNat + 65536 - y.toNat) % 65536 := by
  have := y.isLt
  rw [BitVec.toNat_sub]
  omega

theorem aluAdd_eq (x y : Word) :
    aluAdd x y = ⟨some (x + y), some (if x.toNat + y.toNat ≥ 65536 then 0x0001 else 0x0000), false⟩ := rfl

/-- The exact difference, narrowed, is the difference of the words; it is negative exactly when `x` is below `y`. -/
theorem aluSub_eq (x y : Word) :
    aluSub x y = ⟨some (x - y), some (if x.toNat < y.toNat then 0xFFFF else 0x0000), false⟩ := by
  have hresult : BitVec.ofInt 16 ((x.toNat : Int) - (y.toNat : Int)) = x - y := by
    apply BitVec.eq_of_toNat_eq
    have := y.isLt
    rw [BitVec.toNat_ofInt, toNat_word_sub]
    omega
  have hborrow : ((x.toNat : Int) - (y.toNat : Int) < 0) ↔ x.toNat < y.toNat := by omega
  simp only [aluSub, subOverflow, hresult, hborrow]

/-- The product of two words has at most 32 bits, so its high word needs no narrowing. -/
theorem toNat_mulOverflow (x y : Word) : (mulOverflow x y).toNat = x.toNat * y.toNat / 65536 :=
  toNat_wrap16_of_lt (Nat.div_lt_of_lt_mul (Nat.mul_lt_mul'' x.isLt y.isLt))

/-! ### The obligations of the single opcodes -/

/-- Settles O13: the result of SET is `y` itself. -/
theorem setCopiesTheSource : Obligations.SetCopiesTheSource := fun _ _ _ => exec_result rfl rfl

/-- Settles O14: `x + y` on words is the sum modulo 2^16. -/
theorem addWritesTheSumAndTheCarry : Obligations.AddWritesTheSumAndTheCarry := by
  intro a b s r
  obtain ⟨t, hexec, hresult, hrest⟩ := exec_result_overflow (i := .add a b) (s := s) rfl (aluAdd_eq _ _)
  exact ⟨t, hexec, fun c hc ho => by rw [hresult c hc ho]; exact BitVec.toNat_add .., hrest⟩

/-- Settles O15: `x - y` on words is the difference modulo 2^16. -/
theorem subWritesTheDifferenceAndTheBorrow : Obligations.SubWritesTheDifferenceAndTheBorrow := by
  intro a b s r
  obtain ⟨t, hexec, hresult, hrest⟩ := exec_result_overflow (i := .sub a b) (s := s) rfl (aluSub_eq _ _)
  exact ⟨t, hexec, fun c hc ho => by rw [hresult c hc ho, toNat_word_sub], hrest⟩

/-- Settles O16: the product is its high word times 2^16 and its low word. -/
theorem mulWritesTheTwoHalvesOfTheProduct : Obligations.MulWritesTheTwoHalvesOfTheProduct := by
  intro a b s r
  obtain ⟨t, hexec, hresult, ho, hrest⟩ := exec_result_overflow (i := .mul a b) (s := s) rfl rfl
  have hhigh : t.o.toNat = r.x.toNat * r.y.toNat / 65536 := by rw [ho, toNat_mulOverflow]
  refine ⟨t, hexec, fun c hc hne => ?_, hhigh, hrest⟩
  rw [hresult c hc hne, toNat_wrap16, hhigh, Nat.div_add_mod']

/-- Settles O17: the quotient is no larger than the dividend, so it is not narrowed; the fraction is. -/
theorem divWritesTheQuotientAndTheFraction : Obligations.DivWritesTheQuotientAndTheFraction := by
  intro a b s r
  obtain ⟨t, hexec, hresult, ho, hrest⟩ := exec_result_overflow (i := .div a b) (s := s) rfl rfl
  refine ⟨t, hexec, fun c hc hne => ?_, by rw [ho]; exact toNat_zero_on_zero_divisor .., hrest⟩
  have hlt : r.x.toNat / r.y.toNat < 65536 := (Nat.div_le_self _ _).trans_lt r.x.isLt
  rw [hresult c hc hne, toNat_zero_on_zero_divisor, Nat.mod_eq_of_lt hlt]

/-- Settles O18: the remainder is no larger than the dividend, so it is not narrowed. -/
theorem modWritesTheRemainder : Obligations.ModWritesTheRemainder := by
  intro a b s r
  obtain ⟨t, hexec, hresult, hrest⟩ := exec_result (i := .mod a b) (s := s) rfl rfl
  refine ⟨t, hexec, fun c hc => ?_, hrest⟩
  have hlt : r.x.toNat % r.y.toNat < 65536 := (Nat.mod_le _ _).trans_lt r.x.isLt
  rw [hresult c hc, toNat_zero_on_zero_divisor, Nat.mod_eq_of_lt hlt]

/-- Settles O19: both words of the exact shift are narrowed. -/
theorem shlWritesTheShiftAndTheBitsAbove : Obligations.ShlWritesTheShiftAndTheBitsAbove := by
  intro a b s r
  obtain ⟨t, hexec, hresult, ho, hrest⟩ := exec_result_overflow (i := .shl a b) (s := s) rfl rfl
  refine ⟨t, hexec, fun c hc hne => ?_, by rw [ho]; exact toNat_wrap16 _, hrest⟩
  rw [hresult c hc hne, toNat_wrap16]

/-- Settles O20: the shifted word is no larger than `x`, so only the bits shifted out are narrowed. -/
theorem shrWritesTheShiftAndTheBitsBelow : Obligations.ShrWritesTheShiftAndTheBitsBelow := by
  intro a b s r
  obtain ⟨t, hexec, hresult, ho, hrest⟩ := exec_result_overflow (i := .shr a b) (s := s) rfl rfl
  refine ⟨t, hexec, fun c hc hne => ?_, by rw [ho]; exact toNat_wrap16 _, hrest⟩
  rw [hresult c hc hne]
  exact toNat_wrap16_of_lt ((Nat.div_le_self _ _).trans_lt r.x.isLt)

/-- Settles O21: the word operation acts on each bit by itself, as the and of that bit of `x` and `y`. -/
theorem andWritesTheBitwiseAnd : Obligations.AndWritesTheBitwiseAnd := by
  intro a b s r
  obtain ⟨t, hexec, hresult, hrest⟩ := exec_result (i := .and a b) (s := s) rfl rfl
  exact ⟨t, hexec, fun c hc k _ => by rw [hresult c hc, BitVec.getLsbD_and], hrest⟩

/-- Settles O22: the word operation acts on each bit by itself, as the or of that bit of `x` and `y`. -/
theorem borWritesTheBitwiseOr : Obligations.BorWritesTheBitwiseOr := by
  intro a b s r
  obtain ⟨t, hexec, hresult, hrest⟩ := exec_result (i := .bor a b) (s := s) rfl rfl
  exact ⟨t, hexec, fun c hc k _ => by rw [hresult c hc, BitVec.getLsbD_or], hrest⟩

/-- Settles O23: the word operation acts on each bit by itself, as the exclusive or of that bit of `x` and `y`. -/
theorem xorWritesTheBitwiseExclusiveOr : Obligations.XorWritesTheBitwiseExclusiveOr := by
  intro a b s r
  obtain ⟨t, hexec, hresult, hrest⟩ := exec_result (i := .xor a b) (s := s) rfl rfl
  exact ⟨t, hexec, fun c hc k _ => by rw [hresult c hc, BitVec.getLsbD_xor], hrest⟩

/-! ### Two opcodes together (42_alu.md R106, R107; 90_conflicts.md C3) -/

/-- Settles O32: the quotient and the remainder of DIV and MOD are those of the division law on naturals. -/
theorem divAndModSplitTheDividend : Obligations.DivAndModSplitTheDividend := by
  intro a b s c r hc hne hy
  obtain ⟨td, hdiv, hquotient, -⟩ := divWritesTheQuotientAndTheFraction a b s
  obtain ⟨tm, hmod, hremainder, -⟩ := modWritesTheRemainder a b s
  have hpos : 0 < r.y.toNat := Nat.pos_of_ne_zero (mt (word_toNat_eq_zero_iff r.y).mp hy)
  refine ⟨td, tm, hdiv, hmod, ?_, ?_⟩
  · rw [hquotient c hc hne, hremainder c hc, if_neg hy, if_neg hy, Nat.div_add_mod']
  · rw [hremainder c hc, if_neg hy]
    exact Nat.mod_lt _ hpos

/-- A register or RAM word as `a` reads what it held before the instruction: resolution changes PC and SP alone (R68). -/
theorem resolveTwo_x_of_cell {a b : Operand} {s : State} {c : Address} (hcell : (∃ r, c = .register r) ∨ ∃ w, c = .ram w)
    (hva : (resolveTwo a b s).va = .addr c) : (resolveTwo a b s).x = load c s := by
  rw [Resolved.x, hva, resolveTwo_st]
  rcases hcell with ⟨r, rfl⟩ | ⟨w, rfl⟩
  · rfl
  · rfl

/-- A sum that lost its carry is below either summand, and only such a sum is. -/
theorem add_lt_right_iff_carry (x y : Word) : (x + y).toNat < y.toNat ↔ x.toNat + y.toNat ≥ 65536 := by
  have := x.isLt
  have := y.isLt
  rw [BitVec.toNat_add]
  omega

/-- Settles O33: SUB reads the sum that ADD left in the cell, takes `y` off again, and borrows exactly when ADD carried. -/
theorem addThenSubRestoresTheCell : Obligations.AddThenSubRestoresTheCell := by
  intro a b s t1 c hcell hva hadd hva1 hy1
  have hne : c ≠ .o := by rcases hcell with ⟨r, rfl⟩ | ⟨w, rfl⟩ <;> nofun
  obtain ⟨t, hexec, hsum, -⟩ := exec_result_overflow (i := .add a b) (s := s) rfl (aluAdd_eq _ _)
  obtain rfl : t = t1 := Host.Outcome.next.inj (hexec.symm.trans hadd)
  have hx1 : (resolveTwo a b t).x = (resolveTwo a b s).x + (resolveTwo a b s).y :=
    (resolveTwo_x_of_cell hcell hva1).trans (hsum c hva hne)
  obtain ⟨t2, hsub, hdiff, ho, -⟩ := exec_result_overflow (i := .sub a b) (s := t) rfl (aluSub_eq _ _)
  refine ⟨t2, hsub, ?_, ?_⟩
  · rw [hdiff c hva1 hne, hx1, hy1, BitVec.add_sub_cancel]
  · simp only [ho, hx1, hy1, add_lt_right_iff_carry]

end Sys2Proof.Machine

/-! PROOFS. The conditionals (spec/43_conditionals.md): what executing one leaves, said once for all four, and the obligations
of the single opcodes. -/

namespace Sys2Proof.Machine

/-! ### What a conditional leaves (43_conditionals.md R114, 41_step_control.md R86) -/

/-- A basic opcode that requests no write adds its failing condition to Skip and changes nothing else. -/
theorem exec_conditional {i : Instr} {alu : Word → Word → AluOut} {a b : Operand} {s : State}
    (hi : aluOf i = some (alu, a, b)) (hnone : ∀ x y, (alu x y).result = none ∧ (alu x y).overflow = none) :
    ∃ t, exec i s = .next t ∧ (t.skip = true ↔ s.skip = true ∨ conditionFails i s) ∧ ReadOnlyFrame [a, b] s t := by
  refine ⟨basicNext alu a b s, exec_basic hi s, ?_, basicNext_readOnly a b s hnone⟩
  rw [basicNext_skip, Bool.or_eq_true, aluOf_skip_iff hi s, or_comm]

/-! ### Words without a common bit (43_conditionals.md R118) -/

theorem and_eq_zero_iff_getLsbD (x y : Word) : x &&& y = 0 ↔ ∀ k < 16, (x.getLsbD k && y.getLsbD k) = false := by
  constructor
  · intro h k _
    rw [← BitVec.getLsbD_and, h, BitVec.ofNat_eq_ofNat, BitVec.getLsbD_zero]
  · intro h
    refine BitVec.eq_of_getLsbD_eq fun k hk => ?_
    rw [BitVec.getLsbD_and, h k hk, BitVec.ofNat_eq_ofNat, BitVec.getLsbD_zero]

/-! ### The obligations of the single opcodes -/

/-- Settles O24: IFE's condition fails when `x` and `y` differ. -/
theorem ifeSkipsUnlessEqual : Obligations.IfeSkipsUnlessEqual := fun _ _ _ =>
  exec_conditional rfl fun _ _ => ⟨rfl, rfl⟩

/-- Settles O25: IFN's condition fails when `x` and `y` are equal. -/
theorem ifnSkipsWhenEqual : Obligations.IfnSkipsWhenEqual := fun _ _ _ =>
  exec_conditional rfl fun _ _ => ⟨rfl, rfl⟩

/-- Settles O26: IFG's condition fails when `x` is at most `y`, unsigned. -/
theorem ifgSkipsUnlessGreater : Obligations.IfgSkipsUnlessGreater := fun _ _ _ =>
  exec_conditional rfl fun _ _ => ⟨rfl, rfl⟩

/-- Settles O27: IFB's condition fails when the word `x &&& y` is zero, that is, when each of its bits is clear. -/
theorem ifbSkipsWithoutACommonBit : Obligations.IfbSkipsWithoutACommonBit := by
  intro a b s r
  rw [← and_eq_zero_iff_getLsbD]
  exact exec_conditional rfl fun _ _ => ⟨rfl, rfl⟩

end Sys2Proof.Machine

/-! PROOFS. The non-basic words (spec/44_nonbasic.md): what JSR leaves, executed and skipped, and the return from a call by
`SET PC, POP`. Each section states the rules first, then the obligation they settle. -/

namespace Sys2Proof.Machine

/-! ### A call (44_nonbasic.md R119) -/

theorem encode_jsr_toNat (a : Operand) : (encode (.jsr a)).toNat = (encodeOperand a).toNat * 1024 + 0x0010 :=
  formatN_toNat Config.jsrCode (encodeOperand a)

/-- The target is read in the state that resolution leaves, before the push. -/
@[simp] theorem jsrNext_pc (a : Operand) (s : State) :
    (jsrNext a s).pc = readValue (resolveOne a s).1 (resolveOne a s).2 := rfl

theorem jsrNext_readRam_slot (a : Operand) (s : State) :
    (jsrNext a s).readRam (spAfter [a] s - 1) = pcAfter [a] s := by
  rw [jsrNext_readRam, if_pos rfl]

theorem jsrNext_readRam_other {a : Operand} {s : State} {w : Word} (h : w ≠ spAfter [a] s - 1) :
    (jsrNext a s).readRam w = s.readRam w := by
  rw [jsrNext_readRam, if_neg h]

/-- Settles O28: executed, the fields of `jsrNext`; skipped, the read-only frame of `skipOver`. -/
theorem jsrPushesTheReturnAddressAndJumps : Obligations.JsrPushesTheReturnAddressAndJumps := by
  intro a s
  refine ⟨encode_jsr_toNat a, ⟨jsrNext a s, exec_jsr a s, ?executed⟩, ⟨skipOver (.jsr a) s, skipInstr_eq rfl s, ?skipped⟩⟩
  case executed =>
    exact ⟨jsrNext_pc a s, jsrNext_sp a s, jsrNext_readRam_slot a s, fun _ hw => jsrNext_readRam_other hw,
      jsrNext_getReg a s, jsrNext_o a s, jsrNext_skip a s, jsrNext_cycles a s⟩
  case skipped => exact ⟨rfl, skipOver_readOnly (.jsr a) s⟩

/-! ### The return from a call (40_operand_resolution.md R76, 42_alu.md R102) -/

/-- The state `SET PC, POP` leaves. -/
def returned (s : State) : State := (s.setSp (s.sp + 1)).setPc (s.readRam s.sp)

theorem exec_set_pc_pop (s : State) : exec (.set .pc .pop) s = .next (returned s) := rfl

/-- The return undoes the call but for the stack slot: PC is the address that was pushed, and SP is back. -/
theorem returned_jsrNext_pc (a : Operand) (s : State) : (returned (jsrNext a s)).pc = pcAfter [a] s := by
  rw [returned, State.setPc_pc, jsrNext_sp, jsrNext_readRam_slot]

theorem returned_jsrNext_sp (a : Operand) (s : State) : (returned (jsrNext a s)).sp = spAfter [a] s := by
  rw [returned, State.setPc_sp, State.setSp_sp, jsrNext_sp, BitVec.sub_add_cancel]

/-- Settles O47: the target is fetched as it stood, since the pushed slot is another word, and its POP reads what the call
pushed. -/
theorem callThenReturnComesBack : Obligations.CallThenReturnComesBack := by
  intro a s x slot hs hjsr hreturn hslot
  have hcall : step s = .next (jsrNext a s) := (step_of_encode rfl hs hjsr).trans (exec_jsr a s)
  have hskip : (jsrNext a s).skip = false := (jsrNext_skip a s).trans hs
  have hfetch : (jsrNext a s).readRam (jsrNext a s).pc = encode (.set .pc .pop) :=
    (jsrNext_readRam_other hslot).trans hreturn
  have hback : step (jsrNext a s) = .next (returned (jsrNext a s)) :=
    (step_of_encode rfl hskip hfetch).trans (exec_set_pc_pop _)
  exact ⟨_, _, hcall, hback, returned_jsrNext_pc a s, returned_jsrNext_sp a s, jsrNext_readRam_slot a s,
    fun _ hw => jsrNext_readRam_other hw, jsrNext_getReg a s, jsrNext_o a s, hskip, jsrNext_cycles a s⟩

end Sys2Proof.Machine
